-- ==== Sys2Proof/Word.lean ====
section
/-!
DEFINITION. The fixed-width bit vectors of the machine: the instruction word and its fields
(spec/00_scope.md R7, R8; spec/30_encoding.md R46 to R48).
-/

namespace Sys2Proof

/-- A 16-bit instruction word; bit 0 is the least significant (R8). -/
abbrev Word := BitVec 16

/-- One 4-bit nibble of a word; nibble 0 is `w[15:12]` (R8). -/
abbrev Nibble := BitVec 4

/-- A register field: the internal index 0..15 of a general register (R11, R51). -/
abbrev RegIdx := BitVec 4

/-- An 8-bit unsigned immediate, 0..255 (R52). -/
abbrev Imm := BitVec 8

/-- A 12-bit absolute instruction index, 0..4095 (R53). -/
abbrev JumpAddr := BitVec 12

/-- The instruction pointer: 13 bits, so that 4095 + 1 is 4096 and not 0 (R19). -/
abbrev Ip := BitVec 13

end Sys2Proof
end

