-- ==== Sys2Proof/Config.lean ====
section
/-!
DEFINITION. The implementation parameters of spec/00_scope.md R7 and the constants the spec fixes.
The parameters the spec calls a model argument (`W`, `Z_RESET`) are the fields of `Params`, which the
state carries unchanged (log entry 1); the byte order of a program file is an argument of the file
functions.
-/

namespace Sys2Proof.Config

/-- The parameters a run is started with and never changes (R7): OPEN in the spec, arguments here. -/
structure Params where
  /-- `W`, the width in bits of a general register; the spec asks `W >= 9` (R7, R15). -/
  width : Nat
  /-- `Z_RESET`, the value of `Z` after reset (R7, R31). -/
  zReset : Int
  deriving DecidableEq, Repr

/-- The least width the spec admits (R7). -/
def minWidth : Nat := 9

/-- The spec's reference parameters: `W = 16` (D1) and `Z_RESET = 0` (D5). DESIGN CHOICE of the spec,
taken for `State.reset` (log entry 2). -/
def reference : Params := { width := 16, zReset := 0 }

/-- The most words a program store holds (R38). -/
def maxProgram : Nat := 4096

/-- The encoder's initial pattern, which a store location never written reads as (R58, R74, R121). -/
def blankWord : Word := 0xFFFF#16

/-- `FILE_BYTE_ORDER`: the order of the two bytes of a word in a program file (R35); no rule of the
core reads it. -/
inductive ByteOrder where
  | little
  | big
  deriving DecidableEq, Repr

end Sys2Proof.Config
end

