-- ==== Sys2Proof/Syntax.lean ====
section
/-!
DEFINITION. The instructions: the ten mnemonics, their formats, the decoded instruction `Instr` with one
constructor per row of spec/opcode_table.json, and the pre-encode instruction `RawInstr`, whose
operands are numbers that may lie outside the fields (spec/30_encoding.md R49, R54, R66).
-/

namespace Sys2Proof

/-- The ten mnemonics, a closed set (R54, R55). -/
inductive Mnemonic where
  | halt | loadi | add | regdump | prompti | cmp | jle | jmp | addi | sub
  deriving DecidableEq, Repr

/-- The six formats (the source's shapes) of R49. -/
inductive Format where
  /-- No operand: HALT. -/
  | n
  /-- One register: REGDUMP, PROMPTI. -/
  | r
  /-- Two registers: CMP. -/
  | rr
  /-- Three registers: ADD, SUB. -/
  | rrr
  /-- A register and an immediate: LOADI, ADDI. -/
  | ri
  /-- A jump address: JLE, JMP. -/
  | j
  deriving DecidableEq, Repr

/-- The format of each mnemonic (R49). -/
def Mnemonic.format : Mnemonic → Format
  | .halt => .n
  | .regdump | .prompti => .r
  | .cmp => .rr
  | .add | .sub => .rrr
  | .loadi | .addi => .ri
  | .jle | .jmp => .j

/-- A decoded instruction: one constructor per row of the opcode table, with the fields its executor
reads (R49, R54). The nibbles a format leaves unwritten are no operand (R56). -/
inductive Instr where
  /-- HALT, R111. -/
  | halt
  /-- LOADI reg1 immediate, R103. -/
  | loadi (r1 : RegIdx) (imm : Imm)
  /-- ADD reg1 reg2 reg3, R104. -/
  | add (r1 r2 r3 : RegIdx)
  /-- REGDUMP reg1, R112. -/
  | regdump (r1 : RegIdx)
  /-- PROMPTI reg1, R113. -/
  | prompti (r1 : RegIdx)
  /-- CMP reg1 reg2, R108. -/
  | cmp (r1 r2 : RegIdx)
  /-- JLE jumpAddress, R109. -/
  | jle (addr : JumpAddr)
  /-- JMP jumpAddress, R110. -/
  | jmp (addr : JumpAddr)
  /-- ADDI reg1 immediate, R106. -/
  | addi (r1 : RegIdx) (imm : Imm)
  /-- SUB reg1 reg2 reg3, R105. -/
  | sub (r1 r2 r3 : RegIdx)
  deriving DecidableEq, Repr

/-- The mnemonic of an instruction. -/
def Instr.mnemonic : Instr → Mnemonic
  | .halt => .halt
  | .loadi _ _ => .loadi
  | .add _ _ _ => .add
  | .regdump _ => .regdump
  | .prompti _ => .prompti
  | .cmp _ _ => .cmp
  | .jle _ => .jle
  | .jmp _ => .jmp
  | .addi _ _ => .addi
  | .sub _ _ _ => .sub

/-- An operand of a pre-encode instruction, a number as the assembler has it (R73). -/
inductive RawArg where
  /-- A register by its 0-based index; `reg0` gives -1 (R64). -/
  | reg (n : Int)
  /-- An immediate. -/
  | imm (v : Int)
  /-- A resolved jump target, an instruction index. -/
  | addr (i : Int)
  deriving DecidableEq, Repr

/-- An instruction before encoding: the record of opcode and arguments the encoder consumes, after its
resolve stage has replaced a label by an index (R73). -/
structure RawInstr where
  op : Mnemonic
  args : List RawArg
  deriving DecidableEq, Repr

/-- An instruction as the encoder's numeric record (R73). -/
def Instr.toRaw : Instr → RawInstr
  | .halt => ⟨.halt, []⟩
  | .loadi r v => ⟨.loadi, [.reg r.toNat, .imm v.toNat]⟩
  | .add a b c => ⟨.add, [.reg a.toNat, .reg b.toNat, .reg c.toNat]⟩
  | .regdump r => ⟨.regdump, [.reg r.toNat]⟩
  | .prompti r => ⟨.prompti, [.reg r.toNat]⟩
  | .cmp a b => ⟨.cmp, [.reg a.toNat, .reg b.toNat]⟩
  | .jle t => ⟨.jle, [.addr t.toNat]⟩
  | .jmp t => ⟨.jmp, [.addr t.toNat]⟩
  | .addi r v => ⟨.addi, [.reg r.toNat, .imm v.toNat]⟩
  | .sub a b c => ⟨.sub, [.reg a.toNat, .reg b.toNat, .reg c.toNat]⟩

end Sys2Proof
end

