-- ==== Sys2Proof/WellFormed.lean ====
section
/-!
DEFINITION. Well-formed instructions: the encoder's preconditions, "register indices must lie in [0,16);
immediates must lie in [0,256) i.e. fit 8 bits; jump addresses must lie in [0,4096) i.e. fit 12 bits"
(spec/40_encoder_decoder.md R73), and the argument shape of the opcode (spec/30_encoding.md R66).
-/

namespace Sys2Proof

/-- Why a pre-encode instruction is refused. -/
inductive IllFormed where
  /-- The arguments do not have the opcode's shape (R66). -/
  | wrongShape
  /-- A register index outside [0,16) (R69, conflict C2). -/
  | registerOutOfRange (n : Int)
  /-- An immediate outside [0,256) (R69, R73). -/
  | immediateOutOfRange (v : Int)
  /-- A jump address outside [0,4096) (R73, R84, D18). -/
  | addressOutOfRange (i : Int)
  deriving DecidableEq, Repr

/-- The two-sided register check of R69. -/
def checkReg (n : Int) : Except IllFormed RegIdx :=
  if 0 ≤ n ∧ n < 16 then .ok (BitVec.ofNat 4 n.toNat) else .error (.registerOutOfRange n)

/-- The immediate check of R69 and R73. -/
def checkImm (v : Int) : Except IllFormed Imm :=
  if 0 ≤ v ∧ v < 256 then .ok (BitVec.ofNat 8 v.toNat) else .error (.immediateOutOfRange v)

/-- The jump-address check of R73 and R84. -/
def checkAddr (i : Int) : Except IllFormed JumpAddr :=
  if 0 ≤ i ∧ i < 4096 then .ok (BitVec.ofNat 12 i.toNat) else .error (.addressOutOfRange i)

/-- The preconditions of encoding: the instruction a record stands for, or the first check it fails. -/
def RawInstr.check (i : RawInstr) : Except IllFormed Instr :=
  match i.op, i.args with
  | .halt, [] => .ok .halt
  | .loadi, [.reg n, .imm v] => do .ok (.loadi (← checkReg n) (← checkImm v))
  | .add, [.reg a, .reg b, .reg c] => do .ok (.add (← checkReg a) (← checkReg b) (← checkReg c))
  | .regdump, [.reg n] => do .ok (.regdump (← checkReg n))
  | .prompti, [.reg n] => do .ok (.prompti (← checkReg n))
  | .cmp, [.reg a, .reg b] => do .ok (.cmp (← checkReg a) (← checkReg b))
  | .jle, [.addr t] => do .ok (.jle (← checkAddr t))
  | .jmp, [.addr t] => do .ok (.jmp (← checkAddr t))
  | .addi, [.reg n, .imm v] => do .ok (.addi (← checkReg n) (← checkImm v))
  | .sub, [.reg a, .reg b, .reg c] => do .ok (.sub (← checkReg a) (← checkReg b) (← checkReg c))
  | _, _ => .error .wrongShape

/-- A pre-encode instruction is well formed when the checks accept it. -/
def RawInstr.wellFormed (i : RawInstr) : Bool :=
  match i.check with
  | .ok _ => true
  | .error _ => false

/-- A decoded instruction is well formed when its numeric record passes the encoder's checks and stands
for it. The operand types of `Instr` are as wide as the fields, so every instruction is. -/
abbrev Instr.WellFormed (i : Instr) : Prop := i.toRaw.check.toOption = some i

end Sys2Proof
end

