-- ==== Sys2Proof/Decode.lean ====
section
/-!
DEFINITION. The decoder block and the encoder block (spec/40_encoder_decoder.md), over the layout of
spec/30_encoding.md R47 to R54.
-/

namespace Sys2Proof

/-! ### The opcode map -/

/-- The opcode map of R54: the code of each mnemonic. -/
def Mnemonic.code : Mnemonic → Nibble
  | .halt => 0x0#4
  | .loadi => 0x1#4
  | .add => 0x2#4
  | .regdump => 0x3#4
  | .prompti => 0x4#4
  | .cmp => 0x5#4
  | .jle => 0x6#4
  | .jmp => 0x7#4
  | .addi => 0x8#4
  | .sub => 0x9#4

/-- The mnemonic of an opcode value; `0xA`..`0xF` have none (R54, R55). -/
def Mnemonic.ofCode (c : Nibble) : Option Mnemonic :=
  match c.toNat with
  | 0 => some .halt
  | 1 => some .loadi
  | 2 => some .add
  | 3 => some .regdump
  | 4 => some .prompti
  | 5 => some .cmp
  | 6 => some .jle
  | 7 => some .jmp
  | 8 => some .addi
  | 9 => some .sub
  | _ => none

/-! ### The decoder -/

/-- The record of seven fields the decoder produces, all unsigned (R48, R86). -/
structure Decoded where
  opcode : Nibble
  reg1 : RegIdx
  reg2 : RegIdx
  reg3 : RegIdx
  immediate : Imm
  jumpAddress : JumpAddr
  raw : Word
  deriving DecidableEq, Repr

/-- The decoder: unconditional bit extraction, total, without validation (R86, R87). -/
def decode (w : Word) : Decoded where
  opcode := w.extractLsb' 12 4
  reg1 := w.extractLsb' 8 4
  reg2 := w.extractLsb' 4 4
  reg3 := w.extractLsb' 0 4
  immediate := w.extractLsb' 0 8
  jumpAddress := w.extractLsb' 0 12
  raw := w

/-- Why a word stands for no instruction. -/
inductive DecodeReject where
  /-- The opcode nibble has no executor; the engine raises UnknownOpcode with the raw word (R55, R94). -/
  | unknownOpcode (raw : Word)
  deriving DecidableEq, Repr

/-- The instruction a decoded record dispatches to: the fields its opcode's format reads (R49, R94). -/
def Decoded.instr (d : Decoded) : Except DecodeReject Instr :=
  match Mnemonic.ofCode d.opcode with
  | some .halt => .ok .halt
  | some .loadi => .ok (.loadi d.reg1 d.immediate)
  | some .add => .ok (.add d.reg1 d.reg2 d.reg3)
  | some .regdump => .ok (.regdump d.reg1)
  | some .prompti => .ok (.prompti d.reg1)
  | some .cmp => .ok (.cmp d.reg1 d.reg2)
  | some .jle => .ok (.jle d.jumpAddress)
  | some .jmp => .ok (.jmp d.jumpAddress)
  | some .addi => .ok (.addi d.reg1 d.immediate)
  | some .sub => .ok (.sub d.reg1 d.reg2 d.reg3)
  | none => .error (.unknownOpcode d.raw)

/-- The instruction of a word, or the reason there is none: decode, then dispatch (R93, R94). -/
def decodeInstr (w : Word) : Except DecodeReject Instr := (decode w).instr

/-- The host's numbering of the opcode table: the low `nbits` bits of `w` are the word, every bit above
them 0. -/
def decodeTableWord (nbits w : Nat) : Option Instr :=
  (decodeInstr (BitVec.ofNat 16 (w % 2 ^ nbits))).toOption

/-! ### The encoder's pack stage -/

/-- The pack stage's input record (R73): only the inputs named by the format of `op` are read. -/
structure EncodeInput where
  op : Mnemonic
  r1 : RegIdx := 0
  r2 : RegIdx := 0
  r3 : RegIdx := 0
  imm : Imm := 0
  addr : JumpAddr := 0
  deriving DecidableEq, Repr

/-- The encoder's working state while it packs one word: the word and the nibble cursor (R74). -/
structure Packing where
  word : Word
  cursor : Nat
  deriving DecidableEq, Repr

/-- Start of every encoding: all ones and the cursor at nibble 0 (R74). -/
def Packing.start : Packing := { word := Config.blankWord, cursor := 0 }

/-- The lowest bit of the span of `n` nibbles that begins at nibble `cursor` (R75). -/
def spanLow (cursor n : Nat) : Nat := 16 - 4 * cursor - 4 * n

/-- The write primitive `put(n, v)` of R75: replaces the span of `n` nibbles at the cursor by `v` and
moves the cursor past it. -/
def Packing.put (n : Nat) (v : BitVec (4 * n)) (p : Packing) : Packing where
  word :=
    (p.word &&& ~~~((BitVec.allOnes (4 * n)).setWidth 16 <<< spanLow p.cursor n)) |||
      (v.setWidth 16 <<< spanLow p.cursor n)
  cursor := p.cursor + n

/-- The pack stage `encode(i)`: the opcode, then the fields of the format at increasing nibble offsets
(R76 to R82). -/
def pack (i : EncodeInput) : Word :=
  let p := Packing.start.put 1 i.op.code
  match i.op.format with
  | .n => p.word
  | .r => (p.put 1 i.r1).word
  | .rr => ((p.put 1 i.r1).put 1 i.r2).word
  | .rrr => (((p.put 1 i.r1).put 1 i.r2).put 1 i.r3).word
  | .ri => ((p.put 1 i.r1).put 2 i.imm).word
  | .j => (p.put 3 i.addr).word

/-- The pack stage's record of an instruction; the inputs its format does not read are left 0 (R73). -/
def Instr.toInput : Instr → EncodeInput
  | .halt => { op := .halt }
  | .loadi r v => { op := .loadi, r1 := r, imm := v }
  | .add a b c => { op := .add, r1 := a, r2 := b, r3 := c }
  | .regdump r => { op := .regdump, r1 := r }
  | .prompti r => { op := .prompti, r1 := r }
  | .cmp a b => { op := .cmp, r1 := a, r2 := b }
  | .jle t => { op := .jle, addr := t }
  | .jmp t => { op := .jmp, addr := t }
  | .addi r v => { op := .addi, r1 := r, imm := v }
  | .sub a b c => { op := .sub, r1 := a, r2 := b, r3 := c }

/-- The word of an instruction, as the encoder packs it (R73 to R82). -/
def encode (i : Instr) : Word := pack i.toInput

/-- `instr(d)` of R89: the pack stage's record made of a decoded record; none where the opcode has no
mnemonic. -/
def Decoded.toInput (d : Decoded) : Option EncodeInput :=
  (Mnemonic.ofCode d.opcode).map fun op =>
    { op := op, r1 := d.reg1, r2 := d.reg2, r3 := d.reg3, imm := d.immediate, addr := d.jumpAddress }

/-- The bits of a format that the encoder never writes, all ones there (R49, R50). -/
def Format.filler : Format → Word
  | .n => 0x0FFF#16
  | .r => 0x00FF#16
  | .rr => 0x000F#16
  | .rrr | .ri | .j => 0x0000#16

/-- A word is canonical if the encoder can produce it: a defined opcode and every unwritten nibble `0xF`
(R57). -/
def canonical (w : Word) : Bool :=
  match Mnemonic.ofCode (decode w).opcode with
  | some op => w &&& op.format.filler == op.format.filler
  | none => false

end Sys2Proof
end

