-- ==== Sys2Proof/Machine/Numbers.lean ====
section
/-!
DEFINITION. The number domains of spec/00_scope.md R10: the set `S_W` and the wrap into it.
-/

namespace Sys2Proof.Machine

/-- Membership in `S_W`, the W-bit two's-complement integers (R10). -/
def InS (w : Nat) (v : Int) : Prop := -2 ^ (w - 1) ≤ v ∧ v ≤ 2 ^ (w - 1) - 1
  deriving Decidable

/-- `wrap_W(v)`: the member of `S_W` congruent to `v` modulo `2^W` (R10). -/
def wrap (w : Nat) (v : Int) : Int := (v + 2 ^ (w - 1)) % 2 ^ w - 2 ^ (w - 1)

end Sys2Proof.Machine
end

