-- ==== Sys2Proof/Machine/State.lean ====
section
/-!
DEFINITION. The state of the execution engine (spec/10_state.md R12 to R31), with what the spec makes an
argument of the step relation: the program, the parameters, the host's answers, the event history and
the reset input (log entries 1, 3, 6, 9, 11). Plain data throughout.
-/

namespace Sys2Proof.Machine

/-- The program store `prog[0..N-1]` (R28, R32): `size` is `N`; `cells` lists, at strictly rising
indices, the words that differ from `Config.blankWord`, which every other index below `N` reads as
(log entry 3). -/
structure Memory where
  size : Nat
  cells : List (Nat × Word)
  deriving DecidableEq, Repr

/-- An empty program store, `N = 0`. -/
def Memory.empty : Memory := { size := 0, cells := [] }

/-- The fault latch (R25, R118). -/
inductive FaultLatch where
  /-- `None`, code 0. -/
  | noFault
  /-- `FetchOutOfBounds`, code 1. -/
  | fetchOutOfBounds
  /-- `UnknownOpcode`, code 2. -/
  | unknownOpcode
  deriving DecidableEq, Repr

/-- One event of a run's history (R117). -/
inductive Event where
  /-- `Output(n, v)` of a REGDUMP: the register number 1..16 and the value (R115). -/
  | output (n : Nat) (v : Int)
  /-- The request of a PROMPTI, which carries no data (R113). -/
  | request
  /-- The value a PROMPTI received (R116). -/
  | input (v : Int)
  deriving DecidableEq, Repr

/-- The state of the machine. The first six fields are R12's tuple. -/
structure State where
  /-- `x[0]`..`x[15]`, each a member of `S_W` (R14, R15; log entry 5). -/
  x : Vector Int 16
  /-- The comparison register `Z`, a member of `S_(W+1)` (R22, R23). -/
  z : Int
  /-- The instruction pointer, 13 bits (R18, R19). -/
  ip : Ip
  /-- True from reset until HALT (R24). -/
  running : Bool
  /-- The fault latch (R25). -/
  fault : FaultLatch
  /-- True while a PROMPTI waits for the host's value (R26). -/
  awaiting : Bool
  /-- The program store (R28). -/
  mem : Memory
  /-- `W` and `Z_RESET` (R7). -/
  params : Config.Params
  /-- The host's answers to the prompts of this run that no PROMPTI has consumed yet, oldest first
  (R98, R116; log entry 6). -/
  inputs : List Int
  /-- The events of this run so far, oldest first (R30, R117; log entry 11). -/
  history : List Event
  /-- The host holds the engine in reset (R131, R134; log entry 9). -/
  resetInput : Bool
  deriving DecidableEq, Repr

/-- How a step stops: the engine has no step in a state where the run is over (R91, R99). Raising a
fault is not a stop: it is a step that writes the latch (R119). -/
inductive Fault where
  /-- Raised by `step` in a halted state: `running = false`, no fault latched (R91, R99). Safe: the spec
  gives the state no step. -/
  | halted
  /-- Raised by `step` in a state whose latch holds FetchOutOfBounds; reports the faulting index (R101,
  R118, R119). Safe: the spec gives the state no step. -/
  | fetchOutOfBounds (index : Ip)
  /-- Raised by `step` in a state whose latch holds UnknownOpcode; reports the faulting index and the word
  there (R101, R118, R119). Safe: the spec gives the state no step. -/
  | unknownOpcode (index : Ip) (word : Option Word)
  deriving DecidableEq, Repr

/-- What the model gives no meaning to. -/
inductive Refusal where
  /-- An arm of `exec` without a meaning; no arm answers so. Safe. -/
  | notModelled (mnemonic : String)
  /-- The host supplies a value outside `S_W`, which the W-bit input port cannot carry (R116; U12): raised
  by PROMPTI's completion and by the host's answer. Safe. -/
  | promptValueOutOfRange (v : Int)
  /-- The host changes the program store while the engine is not in reset (R137; U10): raised by the
  host's load. Safe. -/
  | storeWriteDuringRun
  /-- The host loads a program of more than 4096 words (R38; U17): raised by the host's load and by the start
  of a run. Safe. -/
  | programTooLong (n : Nat)
  deriving DecidableEq, Repr

/-- The machine right after reset (R31), with the reference parameters, no program loaded and nothing
supplied by the host (log entries 2, 6, 11, 12). -/
def State.reset : State where
  x := Vector.replicate 16 0
  z := Config.reference.zReset
  ip := 0
  running := true
  fault := .noFault
  awaiting := false
  mem := Memory.empty
  params := Config.reference
  inputs := []
  history := []
  resetInput := false

end Sys2Proof.Machine
end

