-- ==== Sys2Proof/Machine/Ops.lean ====
section
/-!
DEFINITION. The named operations over the program store, the registers and the control elements: fetch,
the end of a step, `raise`, reset, and the two I/O operations of spec/44_system_io.md.
-/

namespace Sys2Proof.Machine

/-! ### The program store -/

/-- The word listed at index `i`, or the blank word where none is listed. -/
def lookupCell : List (Nat × Word) → Nat → Word
  | [], _ => Config.blankWord
  | (k, w) :: rest, i => if k = i then w else lookupCell rest i

/-- Word `i` of the store, for `i < N`; there is no other index (R32, R33). -/
def Memory.read (m : Memory) (i : Nat) : Option Word :=
  if i < m.size then some (lookupCell m.cells i) else none

/-- A list of cells with the cell at `i` set to `w`, the indices kept rising and no blank word listed. -/
def insertCell (i : Nat) (w : Word) : List (Nat × Word) → List (Nat × Word)
  | [] => if w = Config.blankWord then [] else [(i, w)]
  | (k, u) :: rest =>
    if i < k then (if w = Config.blankWord then (k, u) :: rest else (i, w) :: (k, u) :: rest)
    else if i = k then (if w = Config.blankWord then rest else (i, w) :: rest)
    else (k, u) :: insertCell i w rest

/-- The store with word `i` set to `w`, for `i < N`; only a load does this, no instruction (R34, R43). -/
def Memory.write (m : Memory) (i : Nat) (w : Word) : Memory :=
  if i < m.size then { m with cells := insertCell i w m.cells } else m

/-- The cells of the words `ws` placed from index `i` on. -/
def cellsFrom : Nat → List Word → List (Nat × Word)
  | _, [] => []
  | i, w :: ws =>
    if w = Config.blankWord then cellsFrom (i + 1) ws else (i, w) :: cellsFrom (i + 1) ws

/-- The store that holds the program `ws`: `prog[k]` is the k-th word (R38, R83, R134). -/
def Memory.ofWords (ws : List Word) : Memory := { size := ws.length, cells := cellsFrom 0 ws }

/-- Every index is at least `low`, the indices rise strictly, and no listed word is blank. -/
def cellsRising : Nat → List (Nat × Word) → Bool
  | _, [] => true
  | low, (k, w) :: rest => decide (low ≤ k) && decide (w ≠ Config.blankWord) && cellsRising (k + 1) rest

/-- Every listed index is below `n`. -/
def cellsBelow (n : Nat) (cells : List (Nat × Word)) : Bool := cells.all fun c => decide (c.1 < n)

/-- The canonical form of the store: rising indices below `N`, no blank word listed, `N <= 4096` (R38). -/
def Memory.wf (m : Memory) : Bool :=
  cellsRising 0 m.cells && cellsBelow m.size m.cells && decide (m.size ≤ Config.maxProgram)

/-- The fetch primitive at `ip`: the word, or none where `ip >= N` (R33, R92). -/
def State.fetch (s : State) : Option Word := s.mem.read s.ip.toNat

/-! ### Registers and the instruction pointer -/

/-- `x[i]` (R9, R14); every 4-bit index names a register (R16). -/
def State.readReg (s : State) (r : RegIdx) : Int := s.x[r.toNat]'(r.isLt)

/-- `x[i] <- v` (R9). -/
def State.writeReg (s : State) (r : RegIdx) (v : Int) : State := { s with x := s.x.set r.toNat v r.isLt }

/-- `Z <- v` (R9). -/
def State.writeZ (s : State) (v : Int) : State := { s with z := v }

/-- `W` (R7). -/
def State.width (s : State) : Nat := s.params.width

/-- `ip + 1`, the sequential successor (R18, R20). -/
def State.nextIp (s : State) : Ip := s.ip + 1

/-- `ip <- r` (R9). -/
def State.setIp (s : State) (r : Ip) : State := { s with ip := r }

/-- The last action of a step that raised nothing: `ip <- r` for the executor's returned `r` (R95). -/
def retire (s : State) (r : Ip) : Host.Outcome State Fault Refusal := .next (s.setIp r)

/-! ### Control elements -/

/-- `running <- false` (R24, R111). -/
def State.stop (s : State) : State := { s with running := false }

/-- Taking a fault, `raise F` (R119, R125): the latch takes the cause and nothing else changes; there is no
return from it but reset (R127). -/
def State.raise (s : State) (f : FaultLatch) : State := { s with fault := f }

/-- Reset from any state (R131, R31): every element of the engine at its reset value; the program store and
the parameters stay (R134); the run's pending answers and its history end with the run (log entry 9). -/
def State.applyReset (s : State) : State where
  x := Vector.replicate 16 0
  z := s.params.zReset
  ip := 0
  running := true
  fault := .noFault
  awaiting := false
  mem := s.mem
  params := s.params
  inputs := []
  history := []
  resetInput := false

/-! ### The I/O boundary -/

/-- An event joins the run's history, in execution order (R117). -/
def State.record (s : State) (e : Event) : State := { s with history := s.history ++ [e] }

/-- `Output(n, v)`: one `write`, which always completes (R115). -/
def State.output (s : State) (n : Nat) (v : Int) : State := s.record (.output n v)

/-- The request action of PROMPTI: `awaiting <- true`, the host is asked, nothing else changes (R113). -/
def State.requestInput (s : State) : State := { s.record .request with awaiting := true }

/-- The host's oldest answer `v` is consumed by the pending prompt and stored into `x[r]` (R113, R116). -/
def State.acceptInput (s : State) (r : RegIdx) (v : Int) : State :=
  { (s.writeReg r v).record (.input v) with awaiting := false, inputs := s.inputs.tail }

/-- The completion action of PROMPTI into `x[r]` (R113): with no answer the engine waits and nothing
changes (R26, R129; log entry 7); a value the W-bit port cannot carry is refused (R116; log entry 8). -/
def completeInput (r : RegIdx) (s : State) : Host.Outcome State Fault Refusal :=
  match s.inputs with
  | [] => .next s
  | v :: _ =>
    if InS s.width v then retire (s.acceptInput r v) s.nextIp else .refused (.promptValueOutOfRange v)

end Sys2Proof.Machine
end

