-- ==== Sys2Proof/Machine/Operands.lean ====
section
/-!
DEFINITION. The operand forms: a register by its field, an immediate zero-extended, an absolute jump
target (spec/30_encoding.md R51 to R53).
-/

namespace Sys2Proof.Machine

/-- A register operand: the field value indexes `x` with no further mapping (R51). -/
def regOperand (s : State) (r : RegIdx) : Int := s.readReg r

/-- `zext_W(immediate)`, 0..255, never sign-extended (R52). -/
def immOperand (v : Imm) : Int := (v.toNat : Int)

/-- `zext_13(jumpAddress)`, an absolute instruction index (R53). -/
def jumpTarget (t : JumpAddr) : Ip := t.setWidth 13

/-- The assembler's number of a register, its index plus one (R11, R112). -/
def sourceNumber (r : RegIdx) : Nat := r.toNat + 1

end Sys2Proof.Machine
end

