-- ==== Sys2Proof/Machine/Arith.lean ====
section
/-!
DEFINITION. The register and arithmetic instructions LOADI, ADD, SUB, ADDI (spec/42_arithmetic.md).
-/

namespace Sys2Proof.Machine

/-- The shared end of the four: the destination takes `v` and the step goes on at `ip + 1`; `Z` and all
else stay (R102). -/
def writeAndStep (r : RegIdx) (v : Int) (s : State) : Host.Outcome State Fault Refusal :=
  retire (s.writeReg r v) s.nextIp

/-- LOADI: `x[reg1] <- zext_W(immediate)` (R103). -/
def execLoadi (r1 : RegIdx) (imm : Imm) (s : State) : Host.Outcome State Fault Refusal :=
  writeAndStep r1 (immOperand imm) s

/-- ADD: `x[reg1] <- wrap_W(x[reg2] + x[reg3])` (R104). -/
def execAdd (r1 r2 r3 : RegIdx) (s : State) : Host.Outcome State Fault Refusal :=
  writeAndStep r1 (wrap s.width (regOperand s r2 + regOperand s r3)) s

/-- SUB: `x[reg1] <- wrap_W(x[reg2] - x[reg3])` (R105). -/
def execSub (r1 r2 r3 : RegIdx) (s : State) : Host.Outcome State Fault Refusal :=
  writeAndStep r1 (wrap s.width (regOperand s r2 - regOperand s r3)) s

/-- ADDI: `x[reg1] <- wrap_W(x[reg1] + zext_W(immediate))` (R106). -/
def execAddi (r1 : RegIdx) (imm : Imm) (s : State) : Host.Outcome State Fault Refusal :=
  writeAndStep r1 (wrap s.width (regOperand s r1 + immOperand imm)) s

end Sys2Proof.Machine
end

