-- ==== Sys2Proof/Machine/Flags.lean ====
section
/-!
DEFINITION. The comparison register: what CMP computes and what JLE tests (spec/10_state.md R22, R23).
-/

namespace Sys2Proof.Machine

/-- The value CMP leaves in `Z`: the exact difference (R23, R108). -/
def difference (a b : Int) : Int := a - b

/-- JLE's condition, `Z <= 0` signed (R109). -/
def lessOrEqual (s : State) : Bool := decide (s.z ≤ 0)

end Sys2Proof.Machine
end

