-- ==== Sys2Proof/Machine/Branch.lean ====
section
/-!
DEFINITION. The compare and control-transfer instructions CMP, JLE, JMP (spec/43_compare_branch.md).
-/

namespace Sys2Proof.Machine

/-- CMP: `Z <- x[reg1] - x[reg2]`, exact (R108). -/
def execCmp (r1 r2 : RegIdx) (s : State) : Host.Outcome State Fault Refusal :=
  retire (s.writeZ (difference (regOperand s r1) (regOperand s r2))) s.nextIp

/-- JLE: `ip <- zext_13(jumpAddress)` if `Z <= 0`, else `ip + 1` (R109). -/
def execJle (addr : JumpAddr) (s : State) : Host.Outcome State Fault Refusal :=
  retire s (if lessOrEqual s then jumpTarget addr else s.nextIp)

/-- JMP: `ip <- zext_13(jumpAddress)`, the target unchecked (R107, R110). -/
def execJmp (addr : JumpAddr) (s : State) : Host.Outcome State Fault Refusal :=
  retire s (jumpTarget addr)

end Sys2Proof.Machine
end

