-- ==== Sys2Proof/Machine/System.lean ====
section
/-!
DEFINITION. The system and input/output instructions HALT, REGDUMP, PROMPTI (spec/44_system_io.md).
-/

namespace Sys2Proof.Machine

/-- HALT: `running <- false`, and `ip` advances (R111). -/
def execHalt (s : State) : Host.Outcome State Fault Refusal :=
  retire s.stop s.nextIp

/-- REGDUMP: `Output(reg1 + 1, x[reg1])` (R112). -/
def execRegdump (r1 : RegIdx) (s : State) : Host.Outcome State Fault Refusal :=
  retire (s.output (sourceNumber r1) (regOperand s r1)) s.nextIp

/-- PROMPTI: the request when no prompt is pending, the completion when one is (R113). -/
def execPrompti (r1 : RegIdx) (s : State) : Host.Outcome State Fault Refusal :=
  if s.awaiting then completeInput r1 s else .next s.requestInput

end Sys2Proof.Machine
end

