-- ==== Sys2Proof/Machine/Dispatch.lean ====
section
/-! DEFINITION. The dispatch of spec/41_engine_step.md R94, R96: one arm per row of the opcode table. -/

namespace Sys2Proof.Machine

def exec (i : Instr) (s : State) : Host.Outcome State Fault Refusal :=
  match i with
  | .halt => Sys2Proof.Machine.execHalt s
  | .loadi r1 imm => Sys2Proof.Machine.execLoadi r1 imm s
  | .add r1 r2 r3 => Sys2Proof.Machine.execAdd r1 r2 r3 s
  | .regdump r1 => Sys2Proof.Machine.execRegdump r1 s
  | .prompti r1 => Sys2Proof.Machine.execPrompti r1 s
  | .cmp r1 r2 => Sys2Proof.Machine.execCmp r1 r2 s
  | .jle addr => Sys2Proof.Machine.execJle addr s
  | .jmp addr => Sys2Proof.Machine.execJmp addr s
  | .addi r1 imm => Sys2Proof.Machine.execAddi r1 imm s
  | .sub r1 r2 r3 => Sys2Proof.Machine.execSub r1 r2 r3 s

end Sys2Proof.Machine
end

