-- ==== Sys2Proof/Machine/Engine.lean ====
section
/-!
DEFINITION. One step of the engine: when it is enabled, fetch, decode, dispatch (spec/41_engine_step.md),
and how a word is placed where the next step fetches.
-/

namespace Sys2Proof.Machine

/-- The ordinary step of R96 on the fetched word, and the completion of a pending PROMPTI, which re-reads
its own word (R113; log entry 13). -/
def dispatchWord (w : Word) (s : State) : Host.Outcome State Fault Refusal :=
  if s.awaiting then completeInput (decode w).reg1 s
  else
    match decodeInstr w with
    | .ok i => exec i s
    | .error _ => .next (s.raise .unknownOpcode)

/-- An enabled step: fetch, which may raise FetchOutOfBounds, then the rest (R92 to R96). -/
def engineStep (s : State) : Host.Outcome State Fault Refusal :=
  match s.fetch with
  | none => .next (s.raise .fetchOutOfBounds)
  | some w => dispatchWord w s

/-- A step of the machine. While the host holds reset, the step puts the engine into its reset state and
releases it (R131, R134). Otherwise the engine steps exactly while `running` and no fault is latched; in
every other state the run is over and the step reports how it ended (R91, R99, R101). -/
def cycle (s : State) : Host.Outcome State Fault Refusal :=
  if s.resetInput then .next s.applyReset
  else
    match s.fault with
    | .noFault => if s.running then engineStep s else .fault .halted
    | .fetchOutOfBounds => .fault (.fetchOutOfBounds s.ip)
    | .unknownOpcode => .fault (.unknownOpcode s.ip s.fetch)

/-- The index the word is placed at: `ip`, or 0 where `ip` lies past the last index a store can have. -/
def placeIndex (s : State) : Ip := if s.ip.toNat < Config.maxProgram then s.ip else 0

/-- The store with word `w` at index `i`, grown to hold it. -/
def Memory.place (m : Memory) (i : Nat) (w : Word) : Memory :=
  Memory.write { m with size := max m.size (i + 1) } i w

/-- The state with word `w` at the index the next step fetches and that step enabled and ordinary (log
entry 12). -/
def State.placeWord (s : State) (w : Word) : State :=
  { s with
    ip := placeIndex s
    mem := s.mem.place (placeIndex s).toNat w
    running := true
    fault := .noFault
    awaiting := false
    resetInput := false }

end Sys2Proof.Machine
end

