-- ==== Sys2Proof/Machine/Lexer.lean ====
section
/-!
DEFINITION. The assembler's lexer (spec/30_encoding.md R59 to R65). Source text is a list of characters.
-/

namespace Sys2Proof.Machine

/-- The five token kinds (R59). -/
inductive TokenKind where
  | opcodeWord | register | immediate | address | jumpLabel
  deriving DecidableEq, Repr

/-- A token's kind with its value: "the parsed register index, numeric literal, or label name" (R59). -/
inductive TokenContent where
  /-- OPCODE-WORD: only its literal text. -/
  | opcodeWord
  /-- REGISTER: the 0-based index; `reg0` gives -1 (R64). -/
  | register (n : Int)
  /-- IMMEDIATE (R61). -/
  | immediate (v : Int)
  /-- ADDRESS, which no shape contains (R62). -/
  | address (v : Int)
  /-- JUMP-LABEL: the text before the colon (R63). -/
  | jumpLabel (name : List Char)
  deriving DecidableEq, Repr

/-- The kind of a token's content. -/
def TokenContent.kind : TokenContent → TokenKind
  | .opcodeWord => .opcodeWord
  | .register _ => .register
  | .immediate _ => .immediate
  | .address _ => .address
  | .jumpLabel _ => .jumpLabel

/-- A token; `line` is incremented on each newline and `literal` is the exact source text (R59). That the
first line is 1 is this model's choice (log entry 14). -/
structure Token where
  content : TokenContent
  line : Nat
  literal : List Char
  deriving DecidableEq, Repr

/-- The kind of a token. -/
def Token.kind (t : Token) : TokenKind := t.content.kind

/-- The lexical errors. The source gives one message text, "expected immediate value" (N11; log entry 16). -/
inductive LexErrorKind where
  /-- `#` with no digit (R61). -/
  | expectedImmediateValue
  /-- `@` with no digit (R62, R65; log entry 14). -/
  | expectedAddressValue
  /-- A run followed by `:` that is not letters and then digits (R63; log entry 14). -/
  | malformedLabel
  /-- "Any other character is a lexing error" (R65). -/
  | unexpectedCharacter (c : Char)
  deriving DecidableEq, Repr

/-- An error and its line (R65). -/
structure LexError where
  line : Nat
  kind : LexErrorKind
  deriving DecidableEq, Repr

/-- What the lexer has produced (R59). -/
structure LexResult where
  tokens : List Token
  errors : List LexError
  deriving DecidableEq, Repr

/-- Nothing produced. -/
def LexResult.empty : LexResult := { tokens := [], errors := [] }

/-- A token before the rest. -/
def LexResult.addToken (t : Token) (r : LexResult) : LexResult := { r with tokens := t :: r.tokens }

/-- An error before the rest. -/
def LexResult.addError (e : LexError) (r : LexResult) : LexResult := { r with errors := e :: r.errors }

/-- An ASCII decimal digit (R61, D19). -/
def isDigitChar (c : Char) : Bool := decide (48 ≤ c.toNat ∧ c.toNat ≤ 57)

/-- An ASCII letter (R63, R64; log entry 14). -/
def isLetterChar (c : Char) : Bool :=
  decide (65 ≤ c.toNat ∧ c.toNat ≤ 90) || decide (97 ≤ c.toNat ∧ c.toNat ≤ 122)

/-- A character of a run of letters and digits (R64). -/
def isWordChar (c : Char) : Bool := isLetterChar c || isDigitChar c

/-- The number a run of digits stands for, base ten (R61, D19). -/
def digitsValue (ds : List Char) : Nat := ds.foldl (fun n c => 10 * n + (c.toNat - 48)) 0

/-- The digits of a run of the register pattern, `reg` and then one or more digits (R64). -/
def registerDigits : List Char → Option (List Char)
  | 'r' :: 'e' :: 'g' :: ds => if ds ≠ [] ∧ ds.all isDigitChar then some ds else none
  | _ => none

/-- A run of letters optionally followed by digits (R63). An opcode word or a register's name is such a run too
and may name a label: this model's choice (N10; log entry 14). -/
def isLabelText (run : List Char) : Bool :=
  !(run.takeWhile isLetterChar).isEmpty && (run.dropWhile isLetterChar).all isDigitChar

/-- The token of a run of letters and digits that no `:` follows (R64). -/
def wordToken (line : Nat) (run : List Char) : Token :=
  match registerDigits run with
  | some ds => { content := .register ((digitsValue ds : Int) - 1), line := line, literal := run }
  | none => { content := .opcodeWord, line := line, literal := run }

/-- The token of a run that `:` follows (R63). -/
def labelToken (line : Nat) (run : List Char) : Token :=
  { content := .jumpLabel run, line := line, literal := run ++ [':'] }

/-- The scan: each round consumes one logical token from position `cs` on line `line` (R59); `fuel` bounds
the rounds, of which each consumes at least one character. -/
def lexFrom : Nat → Nat → List Char → LexResult
  | 0, _, _ => .empty
  | _ + 1, _, [] => .empty
  | fuel + 1, line, c :: cs =>
    if c = ' ' then lexFrom fuel line cs
    else if c = '\n' then lexFrom fuel (line + 1) cs
    else if c = ';' then lexFrom fuel line (cs.dropWhile (· ≠ '\n'))
    else if c = '#' then
      let ds := cs.takeWhile isDigitChar
      let rest := lexFrom fuel line (cs.dropWhile isDigitChar)
      if ds = [] then rest.addError { line := line, kind := .expectedImmediateValue }
      else rest.addToken { content := .immediate (digitsValue ds : Int), line := line, literal := c :: ds }
    else if c = '@' then
      let ds := cs.takeWhile isDigitChar
      let rest := lexFrom fuel line (cs.dropWhile isDigitChar)
      if ds = [] then rest.addError { line := line, kind := .expectedAddressValue }
      else rest.addToken { content := .address (digitsValue ds : Int), line := line, literal := c :: ds }
    else if isWordChar c then
      let run := c :: cs.takeWhile isWordChar
      match cs.dropWhile isWordChar with
      | ':' :: after =>
        if isLabelText run then (lexFrom fuel line after).addToken (labelToken line run)
        else (lexFrom fuel line after).addError { line := line, kind := .malformedLabel }
      | after => (lexFrom fuel line after).addToken (wordToken line run)
    else (lexFrom fuel line cs).addError { line := line, kind := .unexpectedCharacter c }

/-- `tokenize(source) -> (tokens, errors)` (R59, R65); the first line is 1 (log entry 14). -/
def tokenize (source : List Char) : LexResult := lexFrom source.length 1 source

end Sys2Proof.Machine
end

