-- ==== Sys2Proof/Machine/Parser.lean ====
section
/-!
DEFINITION. The assembler's parser: the argument shapes, statements, labels and recovery
(spec/30_encoding.md R66 to R68).
-/

namespace Sys2Proof.Machine

/-- The text of each mnemonic, upper case (R65, R66). -/
def mnemonicText : Mnemonic → List Char
  | .halt => ['H', 'A', 'L', 'T']
  | .loadi => ['L', 'O', 'A', 'D', 'I']
  | .add => ['A', 'D', 'D']
  | .regdump => ['R', 'E', 'G', 'D', 'U', 'M', 'P']
  | .prompti => ['P', 'R', 'O', 'M', 'P', 'T', 'I']
  | .cmp => ['C', 'M', 'P']
  | .jle => ['J', 'L', 'E']
  | .jmp => ['J', 'M', 'P']
  | .addi => ['A', 'D', 'D', 'I']
  | .sub => ['S', 'U', 'B']

/-- All mnemonics, in opcode order (R54). -/
def allMnemonics : List Mnemonic :=
  [.halt, .loadi, .add, .regdump, .prompti, .cmp, .jle, .jmp, .addi, .sub]

/-- The mnemonic an opcode text names (R66, R71). -/
def mnemonicOfText (text : List Char) : Option Mnemonic := allMnemonics.find? (mnemonicText · = text)

/-- The argument shape of an opcode: arity and expected token kinds (R66). -/
def argKinds (op : Mnemonic) : List TokenKind :=
  match op.format with
  | .n => []
  | .r => [.register]
  | .rr => [.register, .register]
  | .rrr => [.register, .register, .register]
  | .ri => [.register, .immediate]
  | .j => [.opcodeWord]

/-- A parsed instruction: opcode and argument tokens (R67). The opcode is its text: the parser writes only the
ten mnemonics, and the encoder refuses any other (R84, D12). -/
structure SourceInstr where
  op : List Char
  args : List Token
  deriving DecidableEq, Repr

/-- A label definition: the name and the count of instructions emitted so far (R68). -/
structure LabelDef where
  name : List Char
  index : Nat
  deriving DecidableEq, Repr

/-- The syntax errors (R67; log entries 15, 16). -/
inductive ParseError where
  /-- "Unrecognized opcode text is an error". -/
  | unknownOpcodeText (line : Nat) (text : List Char)
  /-- An argument is missing or of another kind: the opcode, the position and the kind expected. -/
  | missingArgument (op : Mnemonic) (position : Nat) (expected : TokenKind)
  /-- A token that begins no statement and is no label (R62). -/
  | strayToken (line : Nat) (kind : TokenKind)
  deriving DecidableEq, Repr

/-- What the parser is doing between two tokens (R67). -/
inductive ParseMode where
  /-- At the start of a statement. -/
  | ready
  /-- Skipping to the next OPCODE-WORD or JUMP-LABEL. -/
  | recovering
  /-- Inside a statement: the arguments read and the kinds still expected. -/
  | collecting (op : Mnemonic) (args : List Token) (expected : List TokenKind)
  deriving DecidableEq, Repr

/-- The parser's state: the instructions, labels and errors so far, in order, and the mode. -/
structure ParseState where
  instrs : List SourceInstr
  labels : List LabelDef
  errors : List ParseError
  mode : ParseMode
  deriving DecidableEq, Repr

/-- Nothing parsed yet. -/
def ParseState.start : ParseState := { instrs := [], labels := [], errors := [], mode := .ready }

/-- An instruction is complete (R67). -/
def ParseState.emitInstr (p : ParseState) (i : SourceInstr) : ParseState :=
  { p with instrs := p.instrs ++ [i], mode := .ready }

/-- An error, and recovery (R67). -/
def ParseState.reject (p : ParseState) (e : ParseError) : ParseState :=
  { p with errors := p.errors ++ [e], mode := .recovering }

/-- A statement's opcode is read: done if it takes no argument (R66, R67). -/
def ParseState.openStatement (p : ParseState) (op : Mnemonic) : ParseState :=
  match argKinds op with
  | [] => p.emitInstr { op := mnemonicText op, args := [] }
  | kinds => { p with mode := .collecting op [] kinds }

/-- A label binds to the next instruction and takes no slot (R68). Any name will do, an opcode word too, and
`JMP HALT` refers to the label `HALT`: the spec leaves that open (N10; log entry 14). -/
def ParseState.bindLabel (p : ParseState) (name : List Char) : ParseState :=
  { p with labels := p.labels ++ [{ name := name, index := p.instrs.length }], mode := .ready }

/-- A token at the start of a statement or during recovery (R67, R68; log entry 15). -/
def ParseState.statementToken (p : ParseState) (t : Token) : ParseState :=
  match t.content with
  | .opcodeWord =>
    match mnemonicOfText t.literal with
    | some op => p.openStatement op
    | none => p.reject (.unknownOpcodeText t.line t.literal)
  | .jumpLabel name => p.bindLabel name
  | _ => if p.mode = .recovering then p else p.reject (.strayToken t.line t.kind)

/-- One token (R67): an argument of the kind expected joins its statement; any other token ends the
statement in an error and is looked at again in recovery. An OPCODE-WORD where a label reference is expected
is that reference, an opcode word like any other (N10; log entry 14). -/
def ParseState.token (p : ParseState) (t : Token) : ParseState :=
  match p.mode with
  | .collecting op args (k :: ks) =>
    if t.kind = k then
      match ks with
      | [] => p.emitInstr { op := mnemonicText op, args := args ++ [t] }
      | _ :: _ => { p with mode := .collecting op (args ++ [t]) ks }
    else (p.reject (.missingArgument op args.length k)).statementToken t
  | _ => p.statementToken t

/-- The end of the tokens: a statement still open lacks its next argument (R67). -/
def ParseState.finish (p : ParseState) : ParseState :=
  match p.mode with
  | .collecting op args (k :: _) => p.reject (.missingArgument op args.length k)
  | _ => p

/-- `parse(tokens) -> (instructions, labelTable, errors)` (R66 to R68). -/
def parse (tokens : List Token) : ParseState := (tokens.foldl ParseState.token .start).finish

end Sys2Proof.Machine
end

