-- ==== Sys2Proof/Machine/Assemble.lean ====
section
/-!
DEFINITION. The assembler's validator, the encoder's resolve stage and `compile`
(spec/30_encoding.md R69, R70; spec/40_encoder_decoder.md R73, R83, R84).
-/

namespace Sys2Proof.Machine

/-! ### The validator -/

/-- The semantic errors (R69; log entries 16, 17). -/
inductive ValidationError where
  /-- A label seen before (R69). -/
  | duplicateLabel (name : List Char)
  /-- A register outside [0,16) (R69). -/
  | registerOutOfRange (line : Nat) (n : Int)
  /-- An immediate outside [0,256) (R69). -/
  | immediateOutOfRange (line : Nat) (v : Int)
  /-- A referenced label that is not in the table (R69). -/
  | missingLabel (line : Nat) (name : List Char)
  /-- A referenced label whose index is 4096 or more (R69, D18). -/
  | labelOutOfRange (line : Nat) (name : List Char)
  deriving DecidableEq, Repr

/-- The index a label table gives a name: that of its first definition (R68, R73). -/
def labelIndex (labels : List LabelDef) (name : List Char) : Option Nat :=
  (labels.find? (·.name = name)).map LabelDef.index

/-- Each later occurrence of a name is an error, the first is not (R69). -/
def duplicateErrors : List (List Char) → List LabelDef → List ValidationError
  | _, [] => []
  | seen, d :: rest =>
    if d.name ∈ seen then .duplicateLabel d.name :: duplicateErrors seen rest
    else duplicateErrors (d.name :: seen) rest

/-- What is wrong with a label reference (R69, D18). A reference to a label that is defined more than once has
no error of its own, since the duplicate definition already has one: this model's choice (log entry 17). -/
def referenceErrors (labels : List LabelDef) (t : Token) : List ValidationError :=
  match labelIndex labels t.literal with
  | none => [.missingLabel t.line t.literal]
  | some i => if i < 4096 then [] else [.labelOutOfRange t.line t.literal]

/-- What is wrong with one argument (R69). -/
def argErrors (labels : List LabelDef) (t : Token) : List ValidationError :=
  match t.content with
  | .register n => if 0 ≤ n ∧ n < 16 then [] else [.registerOutOfRange t.line n]
  | .immediate v => if 0 ≤ v ∧ v < 256 then [] else [.immediateOutOfRange t.line v]
  | .opcodeWord => referenceErrors labels t
  | .address _ => []
  | .jumpLabel _ => []

/-- `validate(instructions, labelTable) -> errors`: all violations, none of them stopping it (R69). -/
def validate (instrs : List SourceInstr) (labels : List LabelDef) : List ValidationError :=
  duplicateErrors [] labels ++ instrs.flatMap fun i => i.args.flatMap (argErrors labels)

/-! ### The encoder over the parser's records -/

/-- The encoder's errors (R84). -/
inductive EncodeError where
  /-- "An `op` that is not one of the ten mnemonics" (R84, D12). -/
  | unknownOpcode (text : List Char)
  /-- "Resolution failure (label index not a number) is an encoder error". -/
  | unresolvedLabel (name : List Char)
  /-- An input the pack stage's invariants exclude (R73, R84, D12, D18). -/
  | illFormed (reason : IllFormed)
  deriving DecidableEq, Repr

/-- The resolve stage on one argument: a label reference becomes the label's index (R73). -/
def resolveArg (labels : List LabelDef) (t : Token) : Except EncodeError RawArg :=
  match t.content with
  | .register n => .ok (.reg n)
  | .immediate v => .ok (.imm v)
  | .opcodeWord =>
    match labelIndex labels t.literal with
    | some i => .ok (.addr i)
    | none => .error (.unresolvedLabel t.literal)
  | .address _ => .error (.illFormed .wrongShape)
  | .jumpLabel _ => .error (.illFormed .wrongShape)

/-- The resolve stage on the arguments, in order; the first failure stands. -/
def resolveArgs (labels : List LabelDef) : List Token → Except EncodeError (List RawArg)
  | [] => .ok []
  | t :: ts =>
    match resolveArg labels t with
    | .error e => .error e
    | .ok a =>
      match resolveArgs labels ts with
      | .error e => .error e
      | .ok rest => .ok (a :: rest)

/-- The word of an instruction with mnemonic `op`: resolve, the invariants, pack (R73, R84). -/
def emitWord (labels : List LabelDef) (op : Mnemonic) (args : List Token) : Except EncodeError Word :=
  match resolveArgs labels args with
  | .error e => .error e
  | .ok raw =>
    match RawInstr.check { op := op, args := raw } with
    | .error e => .error (.illFormed e)
    | .ok instr => .ok (encode instr)

/-- The word of one instruction record; an opcode outside the ten gives none (R73, R84, D12). -/
def emitOne (labels : List LabelDef) (i : SourceInstr) : Except EncodeError Word :=
  match mnemonicOfText i.op with
  | some op => emitWord labels op i.args
  | none => .error (.unknownOpcode i.op)

/-- `emit(instructions, labelTable) -> (program, errors)`: words in instruction order (R73, R83, R84). -/
def emit (labels : List LabelDef) : List SourceInstr → List Word × List EncodeError
  | [] => ([], [])
  | i :: rest =>
    match emitOne labels i, emit labels rest with
    | .ok w, (ws, es) => (w :: ws, es)
    | .error e, (ws, es) => (ws, e :: es)

/-! ### compile -/

/-- A diagnostic, by the phase it comes from (R70; log entry 16). -/
inductive Diagnostic where
  | lexical (e : LexError)
  | syntactic (e : ParseError)
  | semantic (e : ValidationError)
  | encoding (e : EncodeError)
  deriving DecidableEq, Repr

/-- What `compile` returns: `program` is defined iff `errors` is empty (R70). -/
structure CompileResult where
  program : Option (List Word)
  errors : List Diagnostic
  deriving DecidableEq, Repr

/-- A phase with errors: no program (R70). -/
def CompileResult.failed (errors : List Diagnostic) : CompileResult := { program := none, errors := errors }

/-- The encoder phase (R70, R84). -/
def compileEncode (instrs : List SourceInstr) (labels : List LabelDef) : CompileResult :=
  match emit labels instrs with
  | (ws, []) => { program := some ws, errors := [] }
  | (_, e :: es) => .failed ((e :: es).map .encoding)

/-- The validator and what follows it (R69, R70). -/
def compileParsed (p : ParseState) : CompileResult :=
  match validate p.instrs p.labels with
  | [] => compileEncode p.instrs p.labels
  | e :: es => .failed ((e :: es).map .semantic)

/-- The parser and what follows it (R70). -/
def compileTokens (tokens : List Token) : CompileResult :=
  match (parse tokens).errors with
  | [] => compileParsed (parse tokens)
  | e :: es => .failed ((e :: es).map .syntactic)

/-- `compile(source) -> (program, errors)`: source, lexer, parser, validator, encoder; a phase with an error
ends it, with all errors of that phase (R70). A program of more than 4096 words is delivered here and refused at
load (`State.loadProgram`): this model's reading of U17 (log entry 20). -/
def compile (source : List Char) : CompileResult :=
  match (tokenize source).errors with
  | [] => compileTokens (tokenize source).tokens
  | e :: es => .failed ((e :: es).map .lexical)

end Sys2Proof.Machine
end

