-- ==== Sys2Proof/Machine/ProgramFile.lean ====
section
/-!
DEFINITION. The program as a file: a sequence of 16-bit words in the byte order `FILE_BYTE_ORDER`, two bytes
a word, no header (spec/20_memory.md R35; spec/30_encoding.md R72).
-/

namespace Sys2Proof.Machine

/-- The two bytes of a word in file order (R35, R72). -/
def bytesOfWord (o : Config.ByteOrder) (w : Word) : List (BitVec 8) :=
  match o with
  | .little => [w.extractLsb' 0 8, w.extractLsb' 8 8]
  | .big => [w.extractLsb' 8 8, w.extractLsb' 0 8]

/-- The file of a program (R72). -/
def fileOfProgram (o : Config.ByteOrder) (ws : List Word) : List (BitVec 8) := ws.flatMap (bytesOfWord o)

/-- The word two file bytes stand for (R35). -/
def wordOfBytes (o : Config.ByteOrder) (a b : BitVec 8) : Word :=
  match o with
  | .little => b ++ a
  | .big => a ++ b

/-- The program a loader delivers from a file; none for an odd number of bytes (R35, R72; log entry 18). -/
def programOfFile (o : Config.ByteOrder) : List (BitVec 8) → Option (List Word)
  | [] => some []
  | [_] => none
  | a :: b :: rest => (programOfFile o rest).map (wordOfBytes o a b :: ·)

end Sys2Proof.Machine
end

