-- ==== Sys2Proof/Machine/Render.lean ====
section
/-!
DEFINITION. The message of a REGDUMP, the rendering of an output event (spec/44_system_io.md R115). Text is a
list of characters.
-/

namespace Sys2Proof.Machine

/-- The character of a decimal digit 0..9. -/
def digitChar (d : Nat) : Char := Char.ofNat (48 + d)

/-- The base-ten digits of `k`, most significant first, before `acc`; `fuel` bounds their number. -/
def decDigits : Nat → Nat → List Char → List Char
  | 0, _, acc => acc
  | fuel + 1, k, acc =>
    if k < 10 then digitChar k :: acc else decDigits fuel (k / 10) (digitChar (k % 10) :: acc)

/-- `dec(k)` for `k >= 0`: no leading zeros, `0` for zero (R115). -/
def decNat (k : Nat) : List Char := decDigits (k + 1) k []

/-- `dec(k)`: for `k < 0` a minus sign and then `dec(-k)` (R115, D10). -/
def dec (k : Int) : List Char := if k < 0 then '-' :: decNat (-k).toNat else decNat k.toNat

/-- The fixed text before the register number. -/
def messageHead : List Char :=
  ['R', 'E', 'G', 'D', 'U', 'M', 'P', ' ', 'o', 'f', ' ', 'r', 'e', 'g', ' ']

/-- The message of `Output(n, v)` (R115). -/
def message (n : Nat) (v : Int) : List Char := messageHead ++ dec n ++ [':', ' '] ++ dec v

/-- The messages a run has handed to `write`, in order (R115, R117). -/
def messages (history : List Event) : List (List Char) :=
  history.filterMap fun e =>
    match e with
    | .output n v => some (message n v)
    | .request => none
    | .input _ => none

end Sys2Proof.Machine
end

