-- ==== Sys2Proof/Machine/HostPort.lean ====
section
/-!
DEFINITION. What the host can do to the machine between steps: hold it in reset, load a program, answer a
prompt (spec/44_system_io.md section 3; spec/70_reset_and_hazards.md).
-/

namespace Sys2Proof.Machine

/-- The host's moves. -/
inductive HostMove where
  /-- Apply reset and hold it; the next step releases it (R131). -/
  | reset
  /-- Load the program `ws`, `N = ws.length` (R134). -/
  | load (ws : List Word)
  /-- Supply one value (R116). -/
  | answer (v : Int)
  deriving DecidableEq, Repr

/-- Reset applied and held: the reset state at once, from any state (R131). -/
def hostReset (s : State) : Host.Outcome State Fault Refusal :=
  .next { s.applyReset with resetInput := true }

/-- A load of the program `ws` into the store, of at most 4096 words (R38, R134, U17). -/
def State.loadProgram (s : State) (ws : List Word) : Except Refusal State :=
  if ws.length ≤ Config.maxProgram then .ok { s with mem := Memory.ofWords ws }
  else .error (.programTooLong ws.length)

/-- A load: only while the engine is in reset (R134, R137), and of at most 4096 words (R38, U17). -/
def hostLoad (ws : List Word) (s : State) : Host.Outcome State Fault Refusal :=
  if s.resetInput then
    match s.loadProgram ws with
    | .ok t => .next t
    | .error r => .refused r
  else .refused .storeWriteDuringRun

/-- An answer: it reaches the pending, not yet answered prompt (R113, R129); without one it is not consumed
(R131; log entry 6); a value outside `S_W` cannot be put to the port (R116, U12; log entry 8). -/
def hostAnswer (v : Int) (s : State) : Host.Outcome State Fault Refusal :=
  if InS s.width v then
    if s.awaiting ∧ s.inputs = [] then .next { s with inputs := [v] } else .next s
  else .refused (.promptValueOutOfRange v)

/-- One move of the host. -/
def hostMove (m : HostMove) (s : State) : Host.Outcome State Fault Refusal :=
  match m with
  | .reset => hostReset s
  | .load ws => hostLoad ws s
  | .answer v => hostAnswer v s

/-- The start of a run from reset on program `ws`, which is loaded as every program is, with the host's
answers `vs` (R38, R100, R134). -/
def boot (ws : List Word) (vs : List Int) : Except Refusal State :=
  { State.reset with inputs := vs }.loadProgram ws

end Sys2Proof.Machine
end

