-- ==== Sys2Proof/Machine/Run.lean ====
section
/-!
DEFINITION. The end of a run and what `run` returns (spec/41_engine_step.md R99 to R101).
-/

namespace Sys2Proof.Machine

/-- The numbers of the fault latch (R118). -/
def FaultLatch.code : FaultLatch → Nat
  | .noFault => 0
  | .fetchOutOfBounds => 1
  | .unknownOpcode => 2

/-- Halted: `running = false` and no fault (R99). -/
def State.halted (s : State) : Bool := !s.running && decide (s.fault = .noFault)

/-- Faulted: a fault is latched (R99). -/
def State.faulted (s : State) : Bool := decide (s.fault ≠ .noFault)

/-- The run is over (R99, R100). -/
def State.ended (s : State) : Bool := !s.running || s.faulted

/-- The exit code: none while the run has not ended, else the number of the latch (R101). -/
def State.exitCode (s : State) : Option Nat := if s.ended then some s.fault.code else none

/-- How a run stands after a number of steps (R99, R100). -/
inductive RunResult where
  /-- The run has ended in the final state `s` (R100). -/
  | ended (s : State)
  /-- The run has not ended yet; it need never end (R99). -/
  | unended
  /-- The host did what the spec gives no meaning to: a program too long (R38, U17) or a value that does not
  fit the port (R116, U12). -/
  | refused (r : Refusal)
  deriving DecidableEq, Repr

/-- The run from `s` after at most `k` steps; the engine itself has no step limit (R99, R100). A stop of the
step ends the run where it stands. -/
def runFrom : Nat → State → RunResult
  | 0, s => if s.ended then .ended s else .unended
  | k + 1, s =>
    if s.ended then .ended s
    else
      match step s with
      | .next t => runFrom k t
      | .fault _ => .ended s
      | .refused r => .refused r

/-- The run of the program `ws` from reset with host answers `vs`, after at most `k` steps (R100). -/
def runProgram (k : Nat) (ws : List Word) (vs : List Int) : RunResult :=
  match boot ws vs with
  | .ok s => runFrom k s
  | .error r => .refused r

/-- `run(program)`: the exit code, where the run has ended (R101). -/
def RunResult.exitCode : RunResult → Option Nat
  | .ended s => s.exitCode
  | .unended => none
  | .refused _ => none

end Sys2Proof.Machine
end

