-- ==== Sys2Proof/Safety.lean ====
section
/-!
DEFINITION. The words the claims are stated in: what a step leaves the same, when a step is enabled, and the
invariant of the machine.
-/

namespace Sys2Proof.Machine

/-! ### What stays the same -/

/-- Every general register is unchanged. -/
def SameRegs (s t : State) : Prop := ∀ q : RegIdx, t.readReg q = s.readReg q

/-- Every general register but `x[r]` is unchanged. -/
def SameRegsBut (r : RegIdx) (s t : State) : Prop := ∀ q : RegIdx, q ≠ r → t.readReg q = s.readReg q

/-- The program store reads the same at every index, and its length is the same. -/
def SameStore (s t : State) : Prop := t.mem.size = s.mem.size ∧ ∀ i, t.mem.read i = s.mem.read i

/-- The flag `running`, the fault latch and the reset input are unchanged. -/
def SameControl (s t : State) : Prop :=
  t.running = s.running ∧ t.fault = s.fault ∧ t.resetInput = s.resetInput

/-- No prompt is asked or answered and nothing is output: `awaiting`, the host's answers and the history are
unchanged. -/
def SameIo (s t : State) : Prop :=
  t.awaiting = s.awaiting ∧ t.inputs = s.inputs ∧ t.history = s.history

/-- Everything but the registers, `Z` and `ip` is unchanged: the frame of the instructions that only
compute or jump. -/
def SameRest (s t : State) : Prop :=
  SameControl s t ∧ SameIo s t ∧ SameStore s t ∧ t.params = s.params

/-! ### When a step is enabled -/

/-- The engine has a step (R91), and the host does not hold it in reset. -/
def Ready (s : State) : Prop := s.resetInput = false ∧ s.running = true ∧ s.fault = .noFault

/-- The engine has an ordinary step (R96): no prompt is pending. -/
def Ordinary (s : State) : Prop := Ready s ∧ s.awaiting = false

/-- The word at `ip` decodes to `i`. -/
def FetchesInstr (s : State) (i : Instr) : Prop := ∃ w, s.fetch = some w ∧ decodeInstr w = .ok i

/-! ### The invariant -/

/-- How many prompts the history has asked. -/
def requestCount (h : List Event) : Nat := h.countP fun e => decide (e = .request)

/-- Whether an event is a value received. -/
def Event.isInput : Event → Bool
  | .input _ => true
  | .output _ _ => false
  | .request => false

/-- How many values the history has received. -/
def inputCount (h : List Event) : Nat := h.countP Event.isInput

/-- What an event of a run can be at width `w`: a register number 1..16 and values of `S_W` (R115, R116). -/
def eventOk (w : Nat) : Event → Prop
  | .output n v => 1 ≤ n ∧ n ≤ 16 ∧ InS w v
  | .input v => InS w v
  | .request => True

/-- The invariant of the machine: what holds at reset and after every step and every move of the host. -/
structure Inv (s : State) : Prop where
  /-- `W >= 9` (R7). -/
  width : Config.minWidth ≤ s.width
  /-- The store is in canonical form, with `N <= 4096` (R38). -/
  store : s.mem.wf = true
  /-- `Z_RESET` is a value `Z` can hold (R23). -/
  zReset : InS (s.width + 1) s.params.zReset
  /-- Every general register holds a member of `S_W` (R15). -/
  regs : ∀ r : RegIdx, InS s.width (s.readReg r)
  /-- `Z` holds a member of `S_(W+1)` (R23). -/
  z : InS (s.width + 1) s.z
  /-- `ip` is in 0..4096 (R19). -/
  ip : s.ip.toNat ≤ Config.maxProgram
  /-- A fault leaves `running` true and no prompt pending; a halted state has neither (R25, R125). -/
  fault : s.fault ≠ .noFault → s.running = true ∧ s.awaiting = false
  /-- HALT leaves no prompt pending. -/
  halt : s.running = false → s.awaiting = false
  /-- An engine held in reset has no prompt pending and no fault (R131). -/
  reset : s.resetInput = true → s.awaiting = false ∧ s.fault = .noFault
  /-- FetchOutOfBounds is latched only with `ip` outside the program (R118, R125). -/
  fetchFault : s.fault = .fetchOutOfBounds → s.fetch = none
  /-- UnknownOpcode is latched only with an illegal word at `ip` (R118, R125). -/
  opcodeFault : s.fault = .unknownOpcode → ∃ w, s.fetch = some w ∧ 0xA ≤ (decode w).opcode.toNat
  /-- A prompt is pending only at a PROMPTI, which `ip` still points to (R26, R113). -/
  prompt : s.awaiting = true → ∃ r, FetchesInstr s (.prompti r)
  /-- Each prompt asked has been answered once, but for the pending one (R113). -/
  prompts : requestCount s.history = inputCount s.history + (if s.awaiting then 1 else 0)
  /-- Every event is one the machine can cause (R115, R116). -/
  events : ∀ e ∈ s.history, eventOk s.width e

end Sys2Proof.Machine
end

