-- ==== Sys2Proof/Certificates/Slice0/Obligations.lean ====
section
/-!
DEFINITION. The statements for the provers, from the numbered rules of spec/. A statement whose rule carries
one of the spec's own decisions (D1 to D21 of spec/92_eei_decisions.md) names it; so does one that rests on
a choice of this model (a row of notes/assumptions/).
-/

open Sys2Proof Sys2Proof.Machine

/-! ### The encoder and the decoder -/

/-- R88: the decoder recovers every instruction from its word, each operand at every value. -/
def Obligations.DecodeOfEncode : Prop :=
  ∀ i : Instr, i.WellFormed → decodeInstr (encode i) = .ok i

/-- R89: re-encoding the fields of a legal word forces its unwritten nibbles to `0xF`, and gives the word back
exactly when it is canonical. -/
def Obligations.EncodeOfDecode : Prop :=
  ∀ (w : Word) (op : Mnemonic), Mnemonic.ofCode (decode w).opcode = some op →
    ∃ i : EncodeInput, (decode w).toInput = some i ∧ i.op = op ∧ pack i = w ||| op.format.filler ∧
      (pack i = w ↔ canonical w = true)

/-- R85: the nibble-by-nibble pack stage computes the closed form. -/
def Obligations.EncoderClosedForm : Prop :=
  ∀ i : EncodeInput, (pack i).toNat =
    match i.op with
    | .halt => 0x0FFF
    | .loadi => 0x1000 + 256 * i.r1.toNat + i.imm.toNat
    | .add => 0x2000 + 256 * i.r1.toNat + 16 * i.r2.toNat + i.r3.toNat
    | .regdump => 0x30FF + 256 * i.r1.toNat
    | .prompti => 0x40FF + 256 * i.r1.toNat
    | .cmp => 0x500F + 256 * i.r1.toNat + 16 * i.r2.toNat
    | .jle => 0x6000 + i.addr.toNat
    | .jmp => 0x7000 + i.addr.toNat
    | .addi => 0x8000 + 256 * i.r1.toNat + i.imm.toNat
    | .sub => 0x9000 + 256 * i.r1.toNat + 16 * i.r2.toNat + i.r3.toNat

/-- R75: `put(n, v)` replaces exactly its span, most significant bit first, and moves the cursor past it. -/
def Obligations.PutReplacesItsSpan : Prop :=
  ∀ (p : Packing) (n : Nat) (v : BitVec (4 * n)), 1 ≤ n → n ≤ 3 → p.cursor + n ≤ 4 →
    (p.put n v).cursor = p.cursor + n ∧
    ∀ hi lo : Nat, hi + 4 * p.cursor = 15 → lo + 4 * n = hi + 1 → ∀ k : Nat, k < 16 →
      (p.put n v).word.getLsbD k =
        if lo ≤ k ∧ k ≤ hi then v.getLsbD (k - lo) else p.word.getLsbD k

/-- R86: the seven fields are the slices `w[15:12]`, `w[11:8]`, `w[7:4]`, `w[3:0]`, `w[7:0]`, `w[11:0]`, `w[15:0]`,
read as unsigned numbers. -/
def Obligations.DecodeExtractsFields : Prop :=
  ∀ w : Word,
    (decode w).opcode.toNat = w.toNat / 4096 ∧
    (decode w).reg1.toNat = w.toNat / 256 % 16 ∧
    (decode w).reg2.toNat = w.toNat / 16 % 16 ∧
    (decode w).reg3.toNat = w.toNat % 16 ∧
    (decode w).immediate.toNat = w.toNat % 256 ∧
    (decode w).jumpAddress.toNat = w.toNat % 4096 ∧
    (decode w).raw = w

/-- R54, R55: a word has an instruction exactly when its opcode nibble is below `0xA`. -/
def Obligations.LegalOpcodes : Prop :=
  ∀ w : Word, (∃ i, decodeInstr w = .ok i) ↔ w.toNat < 0xA000

/-- R56: two words of one opcode that agree outside the nibbles its format leaves unwritten are the same
instruction. -/
def Obligations.UnusedNibblesIgnored : Prop :=
  ∀ (w v : Word) (op : Mnemonic), Mnemonic.ofCode (decode w).opcode = some op →
    w ||| op.format.filler = v ||| op.format.filler → decodeInstr w = decodeInstr v

/-- Sanity: one word per family, written out from R54 and the vectors of spec/95_test_vectors.md. -/
def Obligations.SampleWordsDecode : Prop :=
  decodeInstr 0x0FFF#16 = .ok .halt ∧
  decodeInstr 0x101B#16 = .ok (.loadi 0 27) ∧
  decodeInstr 0x9ABC#16 = .ok (.sub 10 11 12) ∧
  decodeInstr 0x5010#16 = .ok (.cmp 0 1) ∧
  decodeInstr 0x6123#16 = .ok (.jle 291) ∧
  decodeInstr 0x4FFF#16 = .ok (.prompti 15)

/-! ### The assembler -/

/-- R121, R57: a program the assembler produces holds only canonical words, none of them illegal. -/
def Obligations.CompiledWordsAreCanonical : Prop :=
  ∀ (source : List Char) (ws : List Word), (compile source).program = some ws →
    ∀ w ∈ ws, canonical w = true ∧ ∃ i, decodeInstr w = .ok i

/-- R70: `program` is defined iff `errors` is empty. -/
def Obligations.ProgramIffNoErrors : Prop :=
  ∀ source : List Char, (compile source).program.isSome = true ↔ (compile source).errors = []

/-- R83: instruction `k` of the parser's list becomes `prog[k]`, and the program has exactly as many words. -/
def Obligations.OneWordPerInstruction : Prop :=
  ∀ (source : List Char) (ws : List Word), (compile source).program = some ws →
    let p := parse (tokenize source).tokens
    ws.length = p.instrs.length ∧
    ∀ (k : Nat) (i : SourceInstr), p.instrs[k]? = some i →
      ∃ w, emitOne p.labels i = .ok w ∧ ws[k]? = some w

/-- R69 (with the two-sided register check of C2 and the label bound of D18): what a program that passes the
validator satisfies. -/
def Obligations.ValidatedProgramsAreInRange : Prop :=
  ∀ (instrs : List SourceInstr) (labels : List LabelDef), validate instrs labels = [] →
    (labels.map LabelDef.name).Nodup ∧
    ∀ i ∈ instrs, ∀ t ∈ i.args,
      (∀ n, t.content = .register n → 0 ≤ n ∧ n < 16) ∧
      (∀ v, t.content = .immediate v → 0 ≤ v ∧ v < 256) ∧
      (t.content = .opcodeWord →
        ∃ k, labelIndex labels t.literal = some k ∧ k < 4096 ∧ (labels.map LabelDef.name).count t.literal = 1)

/-- R84 (D12, D18): the encoder refuses, without a word, an opcode outside the ten, a label that is not in the
table and a label index of 4096 or more; one refusal and no program is delivered. -/
def Obligations.EncoderErrors : Prop :=
  (∀ (labels : List LabelDef) (i : SourceInstr), (∀ op : Mnemonic, i.op ≠ mnemonicText op) →
    emitOne labels i = .error (.unknownOpcode i.op)) ∧
  (∀ (labels : List LabelDef) (op : Mnemonic) (t : Token), op.format = .j → t.content = .opcodeWord →
    (labelIndex labels t.literal = none →
      emitOne labels { op := mnemonicText op, args := [t] } = .error (.unresolvedLabel t.literal)) ∧
    ∀ k : Nat, labelIndex labels t.literal = some k → 4096 ≤ k →
      emitOne labels { op := mnemonicText op, args := [t] } = .error (.illFormed (.addressOutOfRange k))) ∧
  ∀ (labels : List LabelDef) (instrs : List SourceInstr) (i : SourceInstr) (e : EncodeError), i ∈ instrs →
    emitOne labels i = .error e →
    (compileEncode instrs labels).program = none ∧ .encoding e ∈ (compileEncode instrs labels).errors

/-- R64 and example S1 (digits base ten and `reg` in lower case are D19; that the first line is 1 is log entry 14,
this model's choice): `reg` and one or more digits is one REGISTER token with the number less one. -/
def Obligations.RegisterTokens : Prop :=
  ∀ ds : List Char, ds ≠ [] → ds.all isDigitChar = true →
    tokenize ('r' :: 'e' :: 'g' :: ds) =
      { tokens := [{ content := .register ((digitsValue ds : Int) - 1), line := 1, literal := 'r' :: 'e' :: 'g' :: ds }]
        errors := [] }

/-- R68: wherever a label stands, it is bound to the count of instructions emitted so far and emits none; and
between statements it leaves the instructions and the errors of the whole program as they are without it,
whatever tokens follow, and adds just its own entry to the label table. -/
def Obligations.LabelTakesNoSlot : Prop :=
  ∀ (before : List Token) (t : Token) (name : List Char), t.content = .jumpLabel name →
    let m := before.foldl ParseState.token .start
    (m.token t).instrs = m.instrs ∧
    (m.token t).labels = m.labels ++ [{ name := name, index := m.instrs.length }] ∧
    (m.token t).mode = .ready ∧
    (m.mode = .ready → ∀ after : List Token,
      let p := parse (before ++ after)
      let q := parse (before ++ t :: after)
      q.instrs = p.instrs ∧ q.errors = p.errors ∧
      ∃ later, p.labels = m.labels ++ later ∧
        q.labels = m.labels ++ { name := name, index := m.instrs.length } :: later)

/-- R35, R72: a program file of either byte order has two bytes a word and gives the program back. -/
def Obligations.ProgramFileRoundTrip : Prop :=
  ∀ (o : Config.ByteOrder) (ws : List Word),
    (fileOfProgram o ws).length = 2 * ws.length ∧ programOfFile o (fileOfProgram o ws) = some ws

/-! ### The instructions: result, completion, frame -/

/-- R103: LOADI completes; the destination holds the zero-extended immediate, a member of `S_W` for the
widths the spec admits, and nothing else changes but `ip`. -/
def Obligations.LoadiLoadsImmediate : Prop :=
  ∀ (s : State) (r : RegIdx) (v : Imm), 9 ≤ s.width →
    (encode (.loadi r v)).toNat = 0x1000 + 256 * r.toNat + v.toNat ∧
    ∃ t, exec (.loadi r v) s = .next t ∧
    t.readReg r = (v.toNat : Int) ∧ InS s.width (t.readReg r) ∧ t.ip = s.ip + 1 ∧
    SameRegsBut r s t ∧ t.z = s.z ∧ SameRest s t

/-- R104 (`wrap_W` is decision D3, given here by R10's definition): ADD completes; the destination holds the
one member of `S_W` congruent to the sum modulo `2^W`, which is the sum itself when it lies in `S_W`; the
sources are read before the write. -/
def Obligations.AddWraps : Prop :=
  ∀ (s : State) (a b c : RegIdx), 9 ≤ s.width →
    (encode (.add a b c)).toNat = 0x2000 + 256 * a.toNat + 16 * b.toNat + c.toNat ∧
    ∃ t, exec (.add a b c) s = .next t ∧
    InS s.width (t.readReg a) ∧
    (2 : Int) ^ s.width ∣ t.readReg a - (s.readReg b + s.readReg c) ∧
    (InS s.width (s.readReg b + s.readReg c) → t.readReg a = s.readReg b + s.readReg c) ∧
    t.ip = s.ip + 1 ∧ SameRegsBut a s t ∧ t.z = s.z ∧ SameRest s t

/-- R105 (`wrap_W` is decision D3, given here by R10's definition): SUB completes; the minuend is `reg2`. -/
def Obligations.SubWraps : Prop :=
  ∀ (s : State) (a b c : RegIdx), 9 ≤ s.width →
    (encode (.sub a b c)).toNat = 0x9000 + 256 * a.toNat + 16 * b.toNat + c.toNat ∧
    ∃ t, exec (.sub a b c) s = .next t ∧
    InS s.width (t.readReg a) ∧
    (2 : Int) ^ s.width ∣ t.readReg a - (s.readReg b - s.readReg c) ∧
    (InS s.width (s.readReg b - s.readReg c) → t.readReg a = s.readReg b - s.readReg c) ∧
    t.ip = s.ip + 1 ∧ SameRegsBut a s t ∧ t.z = s.z ∧ SameRest s t

/-- R106 (`wrap_W` is decision D3, given here by R10's definition): ADDI completes; the destination is also the
source and the immediate is never negative. -/
def Obligations.AddiWraps : Prop :=
  ∀ (s : State) (r : RegIdx) (v : Imm), 9 ≤ s.width →
    (encode (.addi r v)).toNat = 0x8000 + 256 * r.toNat + v.toNat ∧
    ∃ t, exec (.addi r v) s = .next t ∧
    InS s.width (t.readReg r) ∧
    (2 : Int) ^ s.width ∣ t.readReg r - (s.readReg r + (v.toNat : Int)) ∧
    (InS s.width (s.readReg r + (v.toNat : Int)) → t.readReg r = s.readReg r + (v.toNat : Int)) ∧
    t.ip = s.ip + 1 ∧ SameRegsBut r s t ∧ t.z = s.z ∧ SameRest s t

/-- R108: CMP completes; `Z` holds the exact difference, so its sign compares the registers; when both
registers are members of `S_W`, `Z` is a member of `S_(W+1)` (D4). No register changes. -/
def Obligations.CmpIsExact : Prop :=
  ∀ (s : State) (a b : RegIdx), 9 ≤ s.width →
    (encode (.cmp a b)).toNat = 0x500F + 256 * a.toNat + 16 * b.toNat ∧
    (∀ w, (decode w).opcode = 0x5#4 → decodeInstr w = .ok (.cmp (decode w).reg1 (decode w).reg2)) ∧
    ∃ t, exec (.cmp a b) s = .next t ∧
    t.z = s.readReg a - s.readReg b ∧
    (t.z ≤ 0 ↔ s.readReg a ≤ s.readReg b) ∧ (t.z = 0 ↔ s.readReg a = s.readReg b) ∧
    (t.z < 0 ↔ s.readReg a < s.readReg b) ∧
    (InS s.width (s.readReg a) → InS s.width (s.readReg b) → InS (s.width + 1) t.z) ∧
    t.ip = s.ip + 1 ∧ SameRegs s t ∧ SameRest s t

/-- R109: JLE completes; it goes to the absolute target exactly when `Z <= 0`, equality included, and else to
`ip + 1`; nothing else changes. -/
def Obligations.JleBranches : Prop :=
  ∀ (s : State) (a : JumpAddr),
    (encode (.jle a)).toNat = 0x6000 + a.toNat ∧ ∃ t, exec (.jle a) s = .next t ∧
    (s.z ≤ 0 → t.ip.toNat = a.toNat) ∧ (0 < s.z → t.ip = s.ip + 1) ∧
    SameRegs s t ∧ t.z = s.z ∧ SameRest s t

/-- R110: JMP completes; `ip` takes the absolute target whatever `Z` holds, and nothing else changes. -/
def Obligations.JmpJumps : Prop :=
  ∀ (s : State) (a : JumpAddr),
    (encode (.jmp a)).toNat = 0x7000 + a.toNat ∧ ∃ t, exec (.jmp a) s = .next t ∧ t.ip.toNat = a.toNat ∧
    SameRegs s t ∧ t.z = s.z ∧ SameRest s t

/-- R111: every word `0x0000`..`0x0FFF` is HALT, the encoder's is `0x0FFF`; HALT completes; it clears `running` and still advances `ip`; nothing else changes. -/
def Obligations.HaltStops : Prop :=
  ∀ s : State, encode .halt = 0x0FFF#16 ∧ (∀ w : Word, w.toNat < 0x1000 → decodeInstr w = .ok .halt) ∧
    ∃ t, exec .halt s = .next t ∧ t.running = false ∧ t.ip = s.ip + 1 ∧
    t.fault = s.fault ∧ t.resetInput = s.resetInput ∧ SameRegs s t ∧ t.z = s.z ∧ SameIo s t ∧
    SameStore s t ∧ t.params = s.params

/-- R112: REGDUMP completes with exactly one output, the pair of the 1-based register number and the value,
whose message, `REGDUMP of reg `, the number, a colon and a space, the value, joins the messages of the run; no
state element changes but `ip`. -/
def Obligations.RegdumpOutputs : Prop :=
  ∀ (s : State) (r : RegIdx),
    (encode (.regdump r)).toNat = 0x30FF + 256 * r.toNat ∧
    (∀ w, (decode w).opcode = 0x3#4 → decodeInstr w = .ok (.regdump (decode w).reg1)) ∧
    ∃ t, exec (.regdump r) s = .next t ∧
    t.history = s.history ++ [.output (r.toNat + 1) (s.readReg r)] ∧
    messages t.history = messages s.history ++
      [['R', 'E', 'G', 'D', 'U', 'M', 'P', ' ', 'o', 'f', ' ', 'r', 'e', 'g', ' '] ++ dec ((r.toNat + 1 : Nat) : Int) ++
        [':', ' '] ++ dec (s.readReg r)] ∧
    t.ip = s.ip + 1 ∧ t.awaiting = s.awaiting ∧ t.inputs = s.inputs ∧
    SameRegs s t ∧ t.z = s.z ∧ SameControl s t ∧ SameStore s t ∧ t.params = s.params

/-- R113, the request (the two-action form is decision D9): with no prompt pending PROMPTI sets `awaiting`, asks
once, and nothing else changes; `ip` keeps PROMPTI's own index. -/
def Obligations.PromptiRequests : Prop :=
  ∀ (s : State) (r : RegIdx), s.awaiting = false → ∃ t, exec (.prompti r) s = .next t ∧
    t.awaiting = true ∧ t.history = s.history ++ [.request] ∧ t.ip = s.ip ∧ t.inputs = s.inputs ∧
    SameRegs s t ∧ t.z = s.z ∧ SameControl s t ∧ SameStore s t ∧ t.params = s.params

/-- R113, the completion (D9; the queue of answers is log entry 6): a pending PROMPTI with an answer in `S_W`
stores it unchanged, consumes exactly that answer, and advances `ip`. -/
def Obligations.PromptiCompletes : Prop :=
  ∀ (s : State) (r : RegIdx) (v : Int) (vs : List Int),
    s.awaiting = true → s.inputs = v :: vs → InS s.width v → ∃ t, exec (.prompti r) s = .next t ∧
      t.readReg r = v ∧ t.awaiting = false ∧ t.inputs = vs ∧ t.history = s.history ++ [.input v] ∧
      t.ip = s.ip + 1 ∧ SameRegsBut r s t ∧ t.z = s.z ∧ SameControl s t ∧ SameStore s t ∧
      t.params = s.params

/-- R116, U12 (log entry 8, this model's choice): a value outside `S_W` is refused by name. -/
def Obligations.PromptiRefusesWideValue : Prop :=
  ∀ (s : State) (r : RegIdx) (v : Int) (vs : List Int),
    s.awaiting = true → s.inputs = v :: vs → ¬ InS s.width v →
      exec (.prompti r) s = .refused (.promptValueOutOfRange v)

/-- R118: the ten executors have no error case. Every instruction answers a next state that latches no fault,
but for a PROMPTI whose host value does not fit the port (log entry 8). For a pending PROMPTI without an answer
the next state is the idle step of log entry 7, this model's form of the wait, and no completion (R113). -/
def Obligations.ExecutorsNeverFault : Prop :=
  ∀ (s : State) (i : Instr), (∀ v ∈ s.inputs, InS s.width v) →
    ∃ t, exec i s = .next t ∧ t.fault = s.fault

/-! ### The step -/

/-- R92 to R96: an ordinary step is the execution of the instruction fetched at `ip`; and a step with a prompt
pending at a PROMPTI is that PROMPTI's execution (R113). -/
def Obligations.StepRunsDecodedInstruction : Prop :=
  (∀ (s : State) (i : Instr), Ordinary s → FetchesInstr s i → i.WellFormed → step s = exec i s) ∧
  ∀ (s : State) (r : RegIdx), Ready s → s.awaiting = true → FetchesInstr s (.prompti r) →
    step s = exec (.prompti r) s

/-- R33, R92: fetch gives `prog[ip]` below `N` (and `prog[i]` of a loaded program is its word `i`); from `N` on
the step raises FetchOutOfBounds and does nothing else, so with `N = 0` the first step after reset faults. -/
def Obligations.FetchOutOfBoundsRaised : Prop :=
  (∀ s : State, Ready s → s.mem.size ≤ s.ip.toNat → step s = .next (s.raise .fetchOutOfBounds)) ∧
  (∀ s : State, s.ip.toNat < s.mem.size → ∃ w, s.mem.read s.ip.toNat = some w ∧ s.fetch = some w) ∧
  (∀ (ws : List Word) (i : Nat), (Memory.ofWords ws).read i = ws[i]?) ∧
  step State.reset = .next (State.reset.raise .fetchOutOfBounds)

/-- R121: a fetched word whose opcode nibble is `0xA`..`0xF` makes the step raise UnknownOpcode, whatever its low
twelve bits. -/
def Obligations.UnknownOpcodeRaised : Prop :=
  ∀ (s : State) (w : Word), Ordinary s → s.fetch = some w → 0xA ≤ (decode w).opcode.toNat →
    step s = .next (s.raise .unknownOpcode)

/-- R119, R125 (D7): raising a fault writes the latch and nothing else: `ip` keeps the faulting index, `running`
stays. -/
def Obligations.RaiseWritesOnlyTheLatch : Prop :=
  ∀ (s : State) (f : FaultLatch), (s.raise f).fault = f ∧ (s.raise f).ip = s.ip ∧
    (s.raise f).running = s.running ∧ (s.raise f).resetInput = s.resetInput ∧ SameRegs s (s.raise f) ∧
    (s.raise f).z = s.z ∧ SameIo s (s.raise f) ∧ SameStore s (s.raise f) ∧ (s.raise f).params = s.params

/-- R91 (D7; the stop is log entry 10): outside reset the machine has no step exactly when `running` is false or
a fault is latched. -/
def Obligations.StepEnabledExactly : Prop :=
  ∀ s : State, s.resetInput = false →
    ((∃ cause, step s = .fault cause) ↔ (s.running = false ∨ s.fault ≠ .noFault))

/-- R101, R119 (D7, D8; the report as the stop's reason is log entry 10): how each way of ending is reported, and
its exit code. -/
def Obligations.EndOfRunReport : Prop :=
  ∀ s : State, s.resetInput = false →
    (s.running = false → s.fault = .noFault → step s = .fault .halted ∧ s.exitCode = some 0) ∧
    (s.fault = .fetchOutOfBounds → step s = .fault (.fetchOutOfBounds s.ip) ∧ s.exitCode = some 1) ∧
    (s.fault = .unknownOpcode → step s = .fault (.unknownOpcode s.ip s.fetch) ∧ s.exitCode = some 2) ∧
    (Ready s → s.exitCode = none)

/-- R22: only CMP writes `Z`, and only JLE reads it: any other instruction behaves the same whatever `Z` holds,
and writes no register from it. -/
def Obligations.ZIsCmpToJleOnly : Prop :=
  (∀ (s t : State), step s = .next t → s.resetInput = false → t.z ≠ s.z →
    ∃ a b, FetchesInstr s (.cmp a b) ∧ t.z = s.readReg a - s.readReg b) ∧
  (∀ (s t : State) (d : JumpAddr), exec (.jle d) s = .next t → t.z = s.z ∧ SameRegs s t) ∧
  ∀ (s t : State) (i : Instr) (z' : Int), i.mnemonic ≠ .jle → exec i s = .next t →
    ∃ t', exec i (s.writeZ z') = .next t' ∧ t'.ip = t.ip ∧ SameRegs t t' ∧ SameRest t t' ∧
      (i.mnemonic = .cmp → t'.z = t.z) ∧ (i.mnemonic ≠ .cmp → t'.z = z')

/-- R24: in a run `running` changes only to false and only by HALT; reset alone sets it. -/
def Obligations.OnlyHaltClearsRunning : Prop :=
  ∀ s t : State, step s = .next t →
    (s.resetInput = true → t.running = true) ∧
    (s.resetInput = false → t.running ≠ s.running → t.running = false ∧ FetchesInstr s .halt)

/-- R16: a step changes a register only by an instruction that names it as its destination. The premise is the
invariant's clause that a prompt is pending only at a PROMPTI. -/
def Obligations.RegisterWriters : Prop :=
  ∀ (s t : State) (r : RegIdx), (s.awaiting = true → ∃ q, FetchesInstr s (.prompti q)) →
    step s = .next t → s.resetInput = false → t.readReg r ≠ s.readReg r →
    (s.awaiting = true ∧ FetchesInstr s (.prompti r)) ∨
    (∃ v, FetchesInstr s (.loadi r v)) ∨ (∃ v, FetchesInstr s (.addi r v)) ∨
    (∃ b c, FetchesInstr s (.add r b c)) ∨ (∃ b c, FetchesInstr s (.sub r b c))

/-- R25, R126, R127 (D7): the latch is written only by a step that raises, which changes nothing else; once it
is set no step of the run follows, however long it is run, and reset clears it. -/
def Obligations.LatchIsSticky : Prop :=
  (∀ s t : State, step s = .next t → s.resetInput = false → t.fault ≠ s.fault →
    s.fault = .noFault ∧ t = s.raise t.fault) ∧
  (∀ (k : Nat) (s : State), s.fault ≠ .noFault → s.resetInput = false →
    ∃ cause, Host.Core.run Sys2Proof.core (k + 1) s = .fault cause) ∧
  ∀ s t : State, s.resetInput = true → step s = .next t → t.fault = .noFault

/-- R28, R43: no step changes the program or the parameters of the run. -/
def Obligations.ProgramIsImmutable : Prop :=
  ∀ (k : Nat) (s t : State), Host.Core.run Sys2Proof.core k s = .next t →
    t.mem = s.mem ∧ t.params = s.params ∧ ∀ i, t.mem.read i = s.mem.read i

/-- R97, R117 (the history is log entry 11): a step of a run adds at most one event, at the end of the history. -/
def Obligations.AtMostOneEvent : Prop :=
  ∀ s t : State, step s = .next t → s.resetInput = false →
    t.history = s.history ∨ ∃ e, t.history = s.history ++ [e]

/-! ### The invariant -/

/-- R7, R10, R15, R19, R23, R25, R26, R113, R125: the invariant of the machine holds after every step from every
state in which it holds. -/
def Obligations.StepKeepsInvariant : Prop :=
  ∀ s t : State, Inv s → step s = .next t → Inv t

/-- R31: the invariant holds right after reset. -/
def Obligations.ResetHasInvariant : Prop := Inv State.reset

/-- R131, R134, R116 (log entries 8, 9): every move of the host keeps the invariant. -/
def Obligations.HostKeepsInvariant : Prop :=
  ∀ (m : HostMove) (s t : State), Inv s → hostMove m s = .next t → Inv t

/-- From every state of the invariant in which the engine is enabled (R91), with answers that fit the port (a
wider one is refused, log entry 8), the machine steps, and the step ends in the invariant. For an engine that
waits without an answer the spec enables no step (R91, U5): there the step is the idle one of log entry 7, this
model's choice. -/
def Obligations.EnabledMachineSteps : Prop :=
  ∀ s : State, Inv s → Ready s → (∀ v ∈ s.inputs, InS s.width v) →
    ∃ t, step s = .next t ∧ Inv t ∧ ∀ v ∈ t.inputs, InS t.width v

/-! ### Reset and the host -/

/-- R31 (`Z_RESET` is D5, `W = 16` the reference value D1, log entry 2): what reset leaves. -/
def Obligations.ResetValues : Prop :=
  (∀ r, State.reset.readReg r = 0) ∧ State.reset.z = 0 ∧ State.reset.ip = 0 ∧
  State.reset.running = true ∧ State.reset.fault = .noFault ∧ State.reset.awaiting = false ∧
  State.reset.width = 16

/-- R131 (D16; the held reset input is log entry 9): the host's reset, from any state, leaves every engine element
at its reset value and the program in place, and the next step releases it. -/
def Obligations.ResetFromAnyState : Prop :=
  ∀ s : State, ∃ a t, hostMove .reset s = .next a ∧ step a = .next t ∧
    (∀ r, t.readReg r = 0) ∧ t.z = s.params.zReset ∧ t.ip = 0 ∧ t.running = true ∧
    t.fault = .noFault ∧ t.awaiting = false ∧ t.resetInput = false ∧ SameStore s t ∧ t.params = s.params

/-- R133 (that the unconsumed answers and the history end with the run is log entry 9): after reset nothing of
the run before is left: two machines with the same program and parameters are in
the same state, and so step alike for ever. -/
def Obligations.RunsCarryNothingOver : Prop :=
  ∀ (s s' : State), s.mem = s'.mem → s.params = s'.params → ∀ k : Nat,
    Host.Core.run Sys2Proof.core k s.applyReset = Host.Core.run Sys2Proof.core k s'.applyReset

/-- R131 (D16): an answer given after reset for a prompt that reset dropped is not consumed. -/
def Obligations.LateAnswerNotConsumed : Prop :=
  ∀ (s a t : State) (v : Int), s.awaiting = true → hostMove .reset s = .next a → step a = .next t →
    InS s.width v → hostMove (.answer v) t = .next t

/-- R113, R116, R129 (D9; the list of answers is log entry 6, the refusal log entry 8): the host's answer to a
waiting prompt is held for it and changes nothing else; the next step completes the prompt with it; a second
answer changes nothing; a value outside `S_W` is refused at the port. -/
def Obligations.AnswerCompletesPrompt : Prop :=
  (∀ (s : State) (r : RegIdx) (v : Int), Ready s → s.awaiting = true → s.inputs = [] →
    FetchesInstr s (.prompti r) → InS s.width v →
    ∃ a t, hostMove (.answer v) s = .next a ∧ a = { s with inputs := [v] } ∧
      (∀ v' : Int, InS s.width v' → hostMove (.answer v') a = .next a) ∧
      step a = .next t ∧ t.readReg r = v ∧ t.awaiting = false ∧ t.inputs = [] ∧ t.ip = s.ip + 1 ∧
      t.history = s.history ++ [.input v] ∧ SameRegsBut r s t ∧ t.z = s.z ∧ SameControl s t ∧
      SameStore s t ∧ t.params = s.params) ∧
  ∀ (s : State) (v : Int), ¬ InS s.width v → hostMove (.answer v) s = .refused (.promptValueOutOfRange v)

/-- R134, R137, U10, U17 (D6, D15): the host loads only while the engine is in reset, and at most 4096 words; the run
then begins with `prog[0]`, the whole program in place. -/
def Obligations.HostLoadsInReset : Prop :=
  (∀ (s : State) (ws : List Word), s.resetInput = false →
    hostMove (.load ws) s = .refused .storeWriteDuringRun) ∧
  (∀ (s : State) (ws : List Word), s.resetInput = true → 4096 < ws.length →
    hostMove (.load ws) s = .refused (.programTooLong ws.length)) ∧
  ∀ (s : State) (ws : List Word), s.resetInput = true → ws.length ≤ 4096 →
    ∃ a t, hostMove (.load ws) s = .next a ∧ step a = .next t ∧ t.ip = 0 ∧ t.fetch = ws[0]? ∧
      t.mem.size = ws.length ∧ ∀ k : Nat, t.mem.read k = ws[k]?

/-- R19, R38, R101, R134, U17 (D6, D8): a program of more than 4096 words is refused and never run; any other is
started from reset with its words in place, and where its run ends it has halted or faulted, with that exit
code, `ip` in 0..4096 and the invariant kept. -/
def Obligations.ProgramRuns : Prop :=
  (∀ (k : Nat) (ws : List Word) (vs : List Int), 4096 < ws.length →
    runProgram k ws vs = .refused (.programTooLong ws.length)) ∧
  (∀ (ws : List Word) (vs : List Int), ws.length ≤ 4096 → ∃ s, boot ws vs = .ok s ∧ Ordinary s ∧ Inv s ∧
    s.ip = 0 ∧ s.inputs = vs ∧ ∀ i : Nat, s.mem.read i = ws[i]?) ∧
  ∀ (k : Nat) (ws : List Word) (vs : List Int) (t : State), runProgram k ws vs = .ended t →
    Inv t ∧ t.ip.toNat ≤ 4096 ∧
    ((t.running = false ∧ t.fault = .noFault ∧ (runProgram k ws vs).exitCode = some 0) ∨
      (t.fault = .fetchOutOfBounds ∧ t.fetch = none ∧ (runProgram k ws vs).exitCode = some 1) ∨
      (t.fault = .unknownOpcode ∧ (∃ w, t.fetch = some w ∧ 0xA ≤ (decode w).opcode.toNat) ∧
        (runProgram k ws vs).exitCode = some 2))

/-- The store's write (log entry 3): the canonical form is kept, the word is read back, every other index is left
alone. -/
def Obligations.StoreReadAfterWrite : Prop :=
  ∀ (m : Memory) (i : Nat) (w : Word), m.wf = true → i < m.size →
    (m.write i w).wf = true ∧ (m.write i w).read i = some w ∧
    ∀ j, j ≠ i → (m.write i w).read j = m.read j

/-- Log entry 12, this model's way of placing a word: the next step runs exactly the instruction placed. -/
def Obligations.PlacedWordRuns : Prop :=
  ∀ (s : State) (w : Nat) (i : Instr), decodeTableWord 16 w = some i →
    step (s.withFetchWord 16 w) = exec i (s.withFetchWord 16 w)

/-! ### Over several steps -/

/-- R108, R109, R135: a CMP and the JLE after it jump exactly when the first register is at most the second. -/
def Obligations.CmpThenJle : Prop :=
  ∀ (s : State) (a b : RegIdx) (d : JumpAddr) (w : Word), Ordinary s → FetchesInstr s (.cmp a b) →
    s.mem.read (s.ip + 1).toNat = some w → decodeInstr w = .ok (.jle d) →
    ∃ t u, step s = .next t ∧ step t = .next u ∧ SameRegs s u ∧ SameRest s u ∧
      u.ip = if s.readReg a ≤ s.readReg b then jumpTarget d else s.ip + 1 + 1

/-- R107, R109, R110, R120: a JMP or a taken JLE beyond the program is a step like any other, and the next step
faults at the target with nothing else changed. -/
def Obligations.JumpBeyondTheEnd : Prop :=
  ∀ (s : State) (i : Instr) (d : JumpAddr), Ordinary s → FetchesInstr s i →
    (i = .jmp d ∨ (i = .jle d ∧ s.z ≤ 0)) → s.mem.size ≤ d.toNat →
    ∃ t u, step s = .next t ∧ exec i s = .next t ∧ t.fault = .noFault ∧ t.ip.toNat = d.toNat ∧
      step t = .next u ∧ u = t.raise .fetchOutOfBounds ∧ u.ip.toNat = d.toNat ∧ u.running = true ∧
      u.resetInput = false ∧ SameRegs s u ∧ u.z = s.z ∧ SameIo s u ∧ SameStore s u ∧ u.params = s.params

/-- R20, R109, R113, R120: an instruction at the last index that goes on to `ip + 1` (a sequential one, a JLE not
taken, a PROMPTI that completes) runs, and the next step faults; a HALT there also leaves `ip = N`, and no fault
follows (its report is log entry 10). -/
def Obligations.RunningOffTheEnd : Prop :=
  (∀ (s : State) (i : Instr), Ordinary s → FetchesInstr s i → s.ip.toNat + 1 = s.mem.size →
    s.mem.size ≤ 4096 →
    (i.mnemonic ∈ [.loadi, .add, .sub, .addi, .cmp, .regdump] ∨ ∃ d, i = .jle d ∧ 0 < s.z) →
    ∃ t u, step s = .next t ∧ exec i s = .next t ∧ step t = .next u ∧ u = t.raise .fetchOutOfBounds ∧
      u.ip.toNat = s.mem.size) ∧
  (∀ (s : State) (r : RegIdx) (v : Int) (vs : List Int), Ready s → s.awaiting = true →
    FetchesInstr s (.prompti r) → s.inputs = v :: vs → InS s.width v → s.ip.toNat + 1 = s.mem.size →
    s.mem.size ≤ 4096 →
    ∃ t u, step s = .next t ∧ exec (.prompti r) s = .next t ∧ step t = .next u ∧
      u = t.raise .fetchOutOfBounds ∧ u.ip.toNat = s.mem.size) ∧
  ∀ s : State, Ordinary s → FetchesInstr s .halt → s.ip.toNat + 1 = s.mem.size → s.mem.size ≤ 4096 →
    ∃ t, step s = .next t ∧ t.ip.toNat = s.mem.size ∧ t.fault = .noFault ∧ step t = .fault .halted

/-- R113, R117 (D9; an answer held before its request is log entry 6): a PROMPTI with an answer at hand takes a
request step and a completion step; in all it stores
the value, advances `ip` and leaves request and value in the history. -/
def Obligations.PromptInTwoSteps : Prop :=
  ∀ (s : State) (r : RegIdx) (v : Int) (vs : List Int), Ordinary s → FetchesInstr s (.prompti r) →
    s.inputs = v :: vs → InS s.width v →
    ∃ t u, step s = .next t ∧ t.awaiting = true ∧ SameRegs s t ∧ step t = .next u ∧
      u.readReg r = v ∧ SameRegsBut r s u ∧ u.ip = s.ip + 1 ∧ u.awaiting = false ∧ u.inputs = vs ∧
      u.history = s.history ++ [.request, .input v] ∧ u.z = s.z

/-- R26, R113, R129 (D9; the wait as a step without effect is log entry 7): without an answer the engine waits for
ever and nothing changes. -/
def Obligations.PromptWaitsForEver : Prop :=
  ∀ (k : Nat) (s : State), Ready s → s.awaiting = true → s.inputs = [] → s.ip.toNat < s.mem.size →
    Host.Core.run Sys2Proof.core k s = .next s

/-! ### The output text -/

/-- R115 (D10 for negative numbers): the message of `Output(n, v)` is `REGDUMP of reg `, `dec(n)`, a colon and a
space, `dec(v)`, and nothing after it; and `dec(k)` is the base-ten numeral: its digits have the value, there is no
leading zero but in `0` itself, and a negative number is a minus sign before its magnitude's numeral. -/
def Obligations.DecimalNumerals : Prop :=
  (∀ (n : Nat) (v : Int), message n v =
    ['R', 'E', 'G', 'D', 'U', 'M', 'P', ' ', 'o', 'f', ' ', 'r', 'e', 'g', ' '] ++ dec n ++ [':', ' '] ++ dec v) ∧
  (∀ k : Nat, (dec k).all isDigitChar = true ∧ digitsValue (dec k) = k ∧ dec k ≠ [] ∧
    (k ≠ 0 → (dec k).head? ≠ some '0')) ∧
  dec 0 = ['0'] ∧
  ∀ k : Int, k < 0 → dec k = '-' :: dec (-k)
end

