-- ==== Sys2Proof/Laws/Assembler.lean ====
section
/-! SUPPORT. The laws of the assembler's shared operations (R66, R68, R84). -/

namespace Sys2Proof.Machine

/-- The text of a mnemonic names it (R66). -/
@[simp] theorem mnemonicOfText_text (op : Mnemonic) : mnemonicOfText (mnemonicText op) = some op := by
  cases op <;> decide

/-- A text that names a mnemonic is its text. -/
theorem mnemonicText_of_eq_some {text : List Char} {op : Mnemonic} (h : mnemonicOfText text = some op) :
    mnemonicText op = text := by
  simpa using List.find?_some h

/-- A text that is no mnemonic's names none (R84, D12). -/
theorem mnemonicOfText_eq_none {text : List Char} (h : ∀ op : Mnemonic, text ≠ mnemonicText op) :
    mnemonicOfText text = none :=
  List.find?_eq_none.2 fun op _ => by simpa using (h op).symm

/-- An instruction record with a mnemonic's text is packed as that mnemonic (R73). -/
@[simp] theorem emitOne_text (labels : List LabelDef) (op : Mnemonic) (args : List Token) :
    emitOne labels { op := mnemonicText op, args := args } = emitWord labels op args := by
  simp [emitOne]

/-- `emit` reports the error of every record that has one (R84). -/
theorem emit_error_mem {labels : List LabelDef} {i : SourceInstr} {e : EncodeError}
    (h : emitOne labels i = .error e) : ∀ {instrs : List SourceInstr}, i ∈ instrs → e ∈ (emit labels instrs).2
  | j :: rest, hm => by
    unfold emit
    rcases List.mem_cons.1 hm with rfl | hm
    · rw [h]
      exact List.mem_cons_self
    · have ih := emit_error_mem h hm
      cases emitOne labels j with
      | ok w => exact ih
      | error e' => exact List.mem_cons_of_mem _ ih

end Sys2Proof.Machine
end

