-- ==== Sys2Proof/Laws/Encode.lean ====
section
/-!
SUPPORT. A packed word as the concatenation of its fields, and the fields of a concatenation: what the proofs
about the encoder and the decoder work with (spec/40_encoder_decoder.md R76 to R82, R86).
-/

namespace Sys2Proof

/-! ### A packed word is its fields in order -/

theorem pack_n (c : Nibble) : (Packing.start.put 1 c).word = c ++ 0xFFF#12 := by
  apply BitVec.eq_of_getLsbD_eq
  intro k hk
  simp only [BitVec.getLsbD_append, Packing.put, Packing.start, spanLow, Config.blankWord]
  interval_cases k <;> simp

theorem pack_r (c a : Nibble) : ((Packing.start.put 1 c).put 1 a).word = c ++ a ++ 0xFF#8 := by
  apply BitVec.eq_of_getLsbD_eq
  intro k hk
  simp only [BitVec.getLsbD_append, Packing.put, Packing.start, spanLow, Config.blankWord]
  interval_cases k <;> simp

theorem pack_rr (c a b : Nibble) :
    (((Packing.start.put 1 c).put 1 a).put 1 b).word = c ++ a ++ b ++ 0xF#4 := by
  apply BitVec.eq_of_getLsbD_eq
  intro k hk
  simp only [BitVec.getLsbD_append, Packing.put, Packing.start, spanLow, Config.blankWord]
  interval_cases k <;> simp

theorem pack_rrr (c a b d : Nibble) :
    ((((Packing.start.put 1 c).put 1 a).put 1 b).put 1 d).word = c ++ a ++ b ++ d := by
  apply BitVec.eq_of_getLsbD_eq
  intro k hk
  simp only [BitVec.getLsbD_append, Packing.put, Packing.start, spanLow, Config.blankWord]
  interval_cases k <;> simp

theorem pack_ri (c a : Nibble) (v : Imm) :
    (((Packing.start.put 1 c).put 1 a).put 2 v).word = c ++ a ++ v := by
  apply BitVec.eq_of_getLsbD_eq
  intro k hk
  simp only [BitVec.getLsbD_append, Packing.put, Packing.start, spanLow, Config.blankWord]
  interval_cases k <;> simp

theorem pack_j (c : Nibble) (t : JumpAddr) : ((Packing.start.put 1 c).put 3 t).word = c ++ t := by
  apply BitVec.eq_of_getLsbD_eq
  intro k hk
  simp only [BitVec.getLsbD_append, Packing.put, Packing.start, spanLow, Config.blankWord]
  interval_cases k <;> simp

/-! ### The number of a concatenation -/

theorem toNat_append_eq {m n : Nat} (a : BitVec m) (b : BitVec n) :
    (a ++ b).toNat = a.toNat * 2 ^ n + b.toNat := by
  rw [BitVec.toNat_append, Nat.shiftLeft_eq, Nat.mul_comm, ← Nat.two_pow_add_eq_or_of_lt b.isLt]

theorem toNat_rrr (c a b d : Nibble) : BitVec.toNat (w := 16) (c ++ a ++ b ++ d) =
    c.toNat * 4096 + a.toNat * 256 + b.toNat * 16 + d.toNat := by
  have h : BitVec.toNat (w := 16) (c ++ a ++ b ++ d) = (c ++ a ++ b ++ d).toNat := rfl
  rw [h, toNat_append_eq, toNat_append_eq, toNat_append_eq]
  omega

theorem toNat_ri (c a : Nibble) (v : Imm) :
    BitVec.toNat (w := 16) (c ++ a ++ v) = c.toNat * 4096 + a.toNat * 256 + v.toNat := by
  have h : BitVec.toNat (w := 16) (c ++ a ++ v) = (c ++ a ++ v).toNat := rfl
  rw [h, toNat_append_eq, toNat_append_eq]
  omega

theorem toNat_j (c : Nibble) (t : JumpAddr) : BitVec.toNat (w := 16) (c ++ t) = c.toNat * 4096 + t.toNat := by
  have h : BitVec.toNat (w := 16) (c ++ t) = (c ++ t).toNat := rfl
  rw [h, toNat_append_eq]
  omega

/-! ### The opcode map -/

/-- The opcode map read back (R54). -/
theorem ofCode_code (m : Mnemonic) : Mnemonic.ofCode m.code = some m := by cases m <;> rfl

/-- An opcode has no mnemonic exactly from `0xA` on (R55). -/
theorem ofCode_eq_none_iff : ∀ c : Nibble, Mnemonic.ofCode c = none ↔ 0xA ≤ c.toNat := by decide

end Sys2Proof
end

