-- ==== Sys2Proof/Laws/Memory.lean ====
section
/-!
SUPPORT. The program store: every operation keeps its canonical form, a word written is read back, a write
leaves every other index alone, and a loaded program reads as its words (spec/20_memory.md R33, R38).
-/

namespace Sys2Proof.Machine

theorem cellsRising_mono {a b : Nat} (h : a ≤ b) {cs : List (Nat × Word)} (hc : cellsRising b cs = true) :
    cellsRising a cs = true := by
  cases cs with
  | nil => rfl
  | cons c cs =>
    obtain ⟨k, w⟩ := c
    simp only [cellsRising, Bool.and_eq_true, decide_eq_true_eq] at hc ⊢
    exact ⟨⟨by omega, hc.1.2⟩, hc.2⟩

theorem lookupCell_of_rising {low i : Nat} (h : i < low) :
    ∀ {cs : List (Nat × Word)}, cellsRising low cs = true → lookupCell cs i = Config.blankWord := by
  intro cs
  induction cs generalizing low with
  | nil => intro _; rfl
  | cons c cs ih =>
    obtain ⟨k, w⟩ := c
    intro hc
    simp only [cellsRising, Bool.and_eq_true, decide_eq_true_eq] at hc
    have hk : k ≠ i := by omega
    simp only [lookupCell, hk, if_false]
    exact ih (low := k + 1) (by omega) hc.2

/-! ### A write -/

theorem insertCell_rising {low i : Nat} (w : Word) (hi : low ≤ i) :
    ∀ {cs : List (Nat × Word)}, cellsRising low cs = true → cellsRising low (insertCell i w cs) = true := by
  intro cs
  induction cs generalizing low with
  | nil => intro _; by_cases hw : w = Config.blankWord <;> simp [insertCell, cellsRising, hw, hi]
  | cons c cs ih =>
    obtain ⟨k, u⟩ := c
    intro hc
    have hc' := hc
    simp only [cellsRising, Bool.and_eq_true, decide_eq_true_eq] at hc
    unfold insertCell
    by_cases h1 : i < k
    · by_cases hw : w = Config.blankWord
      · simpa [h1, hw] using hc'
      · simp [h1, hw, cellsRising, hi, hc.1.2, hc.2]
    · by_cases h2 : i = k
      · subst h2
        by_cases hw : w = Config.blankWord
        · simpa [hw] using cellsRising_mono (by omega) hc.2
        · simp [hw, cellsRising, hi, hc.2]
      · have := ih (low := k + 1) (by omega) hc.2
        simp [h1, h2, cellsRising, hc.1.1, hc.1.2, this]

theorem insertCell_below {n i : Nat} (w : Word) (hi : i < n) :
    ∀ {cs : List (Nat × Word)}, cellsBelow n cs = true → cellsBelow n (insertCell i w cs) = true := by
  intro cs
  induction cs with
  | nil => intro _; by_cases hw : w = Config.blankWord <;> simp [insertCell, cellsBelow, hw, hi]
  | cons c cs ih =>
    obtain ⟨k, u⟩ := c
    intro hc
    simp only [cellsBelow, List.all_cons, Bool.and_eq_true, decide_eq_true_eq] at hc ih
    have hrest := ih hc.2
    unfold insertCell
    split_ifs <;> simp only [cellsBelow, List.all_cons, Bool.and_eq_true, decide_eq_true_eq, hi, hc.1, hc.2,
      hrest, and_self]

theorem lookupCell_insertCell_self {low i : Nat} (w : Word) :
    ∀ {cs : List (Nat × Word)}, cellsRising low cs = true → lookupCell (insertCell i w cs) i = w := by
  intro cs
  induction cs generalizing low with
  | nil => intro _; by_cases hw : w = Config.blankWord <;> simp [insertCell, lookupCell, hw]
  | cons c cs ih =>
    obtain ⟨k, u⟩ := c
    intro hc
    simp only [cellsRising, Bool.and_eq_true, decide_eq_true_eq] at hc
    unfold insertCell
    by_cases h1 : i < k
    · by_cases hw : w = Config.blankWord
      · have hk : k ≠ i := by omega
        simp [h1, hw, lookupCell, hk, lookupCell_of_rising (show i < k + 1 by omega) hc.2]
      · simp [h1, hw, lookupCell]
    · by_cases h2 : i = k
      · subst h2
        by_cases hw : w = Config.blankWord
        · simp [hw, lookupCell_of_rising (Nat.lt_succ_self i) hc.2]
        · simp [hw, lookupCell]
      · have hk : k ≠ i := fun h => h2 h.symm
        simp [h1, h2, lookupCell, hk, ih (low := k + 1) hc.2]

theorem lookupCell_insertCell_other {i j : Nat} (w : Word) (h : j ≠ i) :
    ∀ cs : List (Nat × Word), lookupCell (insertCell i w cs) j = lookupCell cs j := by
  intro cs
  have hij : i ≠ j := fun e => h e.symm
  induction cs with
  | nil => by_cases hw : w = Config.blankWord <;> simp [insertCell, lookupCell, hw, hij]
  | cons c cs ih =>
    obtain ⟨k, u⟩ := c
    unfold insertCell
    by_cases h1 : i < k
    · by_cases hw : w = Config.blankWord <;> simp [h1, hw, lookupCell, hij]
    · by_cases h2 : i = k
      · subst h2
        by_cases hw : w = Config.blankWord <;> simp [hw, lookupCell, hij]
      · simp [h1, h2, lookupCell, ih]

theorem Memory.wf_iff (m : Memory) :
    m.wf = true ↔ cellsRising 0 m.cells = true ∧ cellsBelow m.size m.cells = true ∧
      m.size ≤ Config.maxProgram := by
  simp [Memory.wf, and_assoc]

/-- A write keeps the canonical form. -/
theorem Memory.write_wf {m : Memory} (h : m.wf = true) (i : Nat) (w : Word) : (m.write i w).wf = true := by
  rw [Memory.wf_iff] at h
  unfold Memory.write
  split_ifs with hi
  · rw [Memory.wf_iff]
    exact ⟨insertCell_rising w (Nat.zero_le i) h.1, insertCell_below w hi h.2.1, h.2.2⟩
  · rwa [Memory.wf_iff]

/-- A word written is read back. -/
theorem Memory.read_write_self {m : Memory} (h : m.wf = true) {i : Nat} (hi : i < m.size) (w : Word) :
    (m.write i w).read i = some w := by
  rw [Memory.wf_iff] at h
  simp [Memory.write, Memory.read, hi, lookupCell_insertCell_self w h.1]

/-- A write leaves every other index alone. -/
theorem Memory.read_write_other (m : Memory) {i j : Nat} (w : Word) (h : j ≠ i) :
    (m.write i w).read j = m.read j := by
  unfold Memory.write
  split_ifs <;> simp [Memory.read, lookupCell_insertCell_other w h]

/-- A store has no word outside `0..N-1` (R33). -/
theorem Memory.read_eq_none_iff (m : Memory) (i : Nat) : m.read i = none ↔ m.size ≤ i := by
  simp [Memory.read]

/-! ### A loaded program -/

theorem cellsFrom_rising (i : Nat) (ws : List Word) : cellsRising i (cellsFrom i ws) = true := by
  induction ws generalizing i with
  | nil => rfl
  | cons w ws ih =>
    unfold cellsFrom
    split_ifs with h
    · exact cellsRising_mono (Nat.le_succ i) (ih (i + 1))
    · simp [cellsRising, h, ih (i + 1)]

theorem cellsFrom_below (i n : Nat) (ws : List Word) (h : i + ws.length ≤ n) :
    cellsBelow n (cellsFrom i ws) = true := by
  induction ws generalizing i with
  | nil => rfl
  | cons w ws ih =>
    simp only [List.length_cons] at h
    have := ih (i + 1) (by omega)
    unfold cellsFrom
    split_ifs with hw
    · exact this
    · simp only [cellsBelow, List.all_cons, Bool.and_eq_true, decide_eq_true_eq] at this ⊢
      exact ⟨by omega, this⟩

theorem lookupCell_cellsFrom (i j : Nat) (ws : List Word) (hj : j < ws.length) :
    lookupCell (cellsFrom i ws) (i + j) = ws[j] := by
  induction ws generalizing i j with
  | nil => simp at hj
  | cons w ws ih =>
    have hstep : ∀ hj' : j - 1 < ws.length, 0 < j →
        lookupCell (cellsFrom (i + 1) ws) (i + j) = ws[j - 1] := by
      intro hj' h0
      have := ih (i + 1) (j - 1) hj'
      rwa [show i + 1 + (j - 1) = i + j by omega] at this
    simp only [List.length_cons] at hj
    rcases Nat.eq_zero_or_pos j with rfl | h0
    · unfold cellsFrom
      split_ifs with hw
      · simp [lookupCell_of_rising (Nat.lt_succ_self i) (cellsFrom_rising (i + 1) ws), hw]
      · simp [lookupCell]
    · have hne : i ≠ i + j := by omega
      have hget : (w :: ws)[j]'(by simp; omega) = ws[j - 1]'(by omega) := by
        obtain ⟨m, rfl⟩ : ∃ m, j = m + 1 := ⟨j - 1, by omega⟩
        simp
      rw [hget]
      unfold cellsFrom
      split_ifs with hw
      · exact hstep (by omega) h0
      · simp only [lookupCell, hne, if_false]
        exact hstep (by omega) h0

/-- A loaded program of at most 4096 words is a canonical store. -/
theorem Memory.ofWords_wf {ws : List Word} (h : ws.length ≤ Config.maxProgram) :
    (Memory.ofWords ws).wf = true := by
  rw [Memory.wf_iff]
  exact ⟨cellsFrom_rising 0 ws, cellsFrom_below 0 _ ws (by simp [Memory.ofWords]), h⟩

/-- A store grown to hold one more word keeps the canonical form, if the word lies below 4096. -/
theorem Memory.place_wf {m : Memory} (h : m.wf = true) {i : Nat} (hi : i < Config.maxProgram) (w : Word) :
    (m.place i w).wf = true := by
  rw [Memory.wf_iff] at h
  refine Memory.write_wf ?_ i w
  rw [Memory.wf_iff]
  refine ⟨h.1, ?_, by simp; omega⟩
  simp only [cellsBelow, List.all_eq_true, decide_eq_true_eq] at h ⊢
  intro c hc
  have := h.2.1 c hc
  omega

theorem State.reset_store_wf : State.reset.mem.wf = true := by decide

end Sys2Proof.Machine
end

