-- ==== Sys2Proof/Laws/Host.lean ====
section
/-! SUPPORT. What a load, the start of a run and a run can do (R38, R99, R100, R134). -/

namespace Sys2Proof.Machine

theorem loadProgram_fits {ws : List Word} (h : ws.length ≤ Config.maxProgram) (s : State) :
    s.loadProgram ws = .ok { s with mem := Memory.ofWords ws } := if_pos h

theorem loadProgram_tooLong {ws : List Word} (h : Config.maxProgram < ws.length) (s : State) :
    s.loadProgram ws = .error (.programTooLong ws.length) := if_neg (Nat.not_le.2 h)

/-- A load that is accepted changes the store alone, and the store is in canonical form. -/
theorem loadProgram_cases {s t : State} {ws : List Word} (h : s.loadProgram ws = .ok t) :
    t = { s with mem := Memory.ofWords ws } ∧ t.mem.wf = true := by
  by_cases hl : ws.length ≤ Config.maxProgram
  · rw [loadProgram_fits hl] at h
    cases h
    exact ⟨rfl, Memory.ofWords_wf hl⟩
  · rw [loadProgram_tooLong (Nat.not_le.1 hl)] at h
    cases h

/-- A load by the host that is accepted was made in reset, and changed the store alone. -/
theorem hostLoad_cases {s t : State} {ws : List Word} (h : hostLoad ws s = .next t) :
    s.resetInput = true ∧ t = { s with mem := Memory.ofWords ws } ∧ t.mem.wf = true := by
  unfold hostLoad at h
  split at h
  · split at h
    · cases h
      exact ⟨‹_›, loadProgram_cases ‹_›⟩
    · cases h
  · cases h

/-- Where a run has ended, it ended in its first state or after a step of it, or its step stopped. -/
theorem runFrom_induction {P : State → Prop} (hstep : ∀ s t, P s → step s = .next t → P t) {t : State} :
    ∀ (k : Nat) (s : State), P s → runFrom k s = .ended t → P t
  | 0, s, hs, h => by
    unfold runFrom at h
    split at h
    · cases h; exact hs
    · cases h
  | k + 1, s, hs, h => by
    unfold runFrom at h
    split at h
    · cases h; exact hs
    · split at h
      · exact runFrom_induction hstep k _ (hstep _ _ hs ‹_›) h
      · cases h; exact hs
      · cases h

end Sys2Proof.Machine
end

