-- ==== Sys2Proof/Laws/Numbers.lean ====
section
/-!
SUPPORT. What `wrap` answers: the one member of `S_W` congruent to its argument (spec/00_scope.md R10).
-/

namespace Sys2Proof.Machine

theorem two_pow_split {w : Nat} (hw : 1 ≤ w) : (2 : Int) ^ w = 2 * 2 ^ (w - 1) := by
  obtain ⟨n, rfl⟩ : ∃ n, w = n + 1 := ⟨w - 1, by omega⟩
  simp [pow_succ, mul_comm]

theorem two_pow_pos' (n : Nat) : (0 : Int) < 2 ^ n := by positivity

/-- `wrap` lands in `S_W`. -/
theorem wrap_inS {w : Nat} (hw : 1 ≤ w) (v : Int) : InS w (wrap w v) := by
  have hs := two_pow_split hw
  have hp := two_pow_pos' (w - 1)
  have h1 := Int.emod_nonneg (v + 2 ^ (w - 1)) (show (2 : Int) ^ w ≠ 0 by omega)
  have h2 := Int.emod_lt_of_pos (v + 2 ^ (w - 1)) (show (0 : Int) < 2 ^ w by omega)
  unfold wrap InS
  omega

/-- `wrap` changes its argument by a multiple of `2^W`. -/
theorem dvd_wrap_sub (w : Nat) (v : Int) : (2 : Int) ^ w ∣ wrap w v - v := by
  have h := Int.emod_add_mul_ediv (v + 2 ^ (w - 1)) (2 ^ w)
  refine ⟨-((v + 2 ^ (w - 1)) / 2 ^ w), ?_⟩
  unfold wrap
  linarith

/-- Two members of `S_W` that differ by a multiple of `2^W` are equal. -/
theorem inS_unique {w : Nat} (hw : 1 ≤ w) {a b : Int} (ha : InS w a) (hb : InS w b)
    (h : (2 : Int) ^ w ∣ a - b) : a = b := by
  have hs := two_pow_split hw
  obtain ⟨ha1, ha2⟩ := ha
  obtain ⟨hb1, hb2⟩ := hb
  have := Int.eq_zero_of_abs_lt_dvd h (by rw [abs_lt]; constructor <;> omega)
  omega

/-- Inside the range `wrap` changes nothing (R102 (d)). -/
theorem wrap_of_inS {w : Nat} (hw : 1 ≤ w) {v : Int} (hv : InS w v) : wrap w v = v :=
  inS_unique hw (wrap_inS hw v) hv (dvd_wrap_sub w v)

/-- A larger width admits more: `S_v` lies in `S_w` for `v ≤ w`. -/
theorem InS.mono {v w : Nat} (h : v ≤ w) {a : Int} (ha : InS v a) : InS w a := by
  have : (2 : Int) ^ (v - 1) ≤ 2 ^ (w - 1) := pow_le_pow_right₀ (by norm_num) (by omega)
  obtain ⟨h1, h2⟩ := ha
  exact ⟨by omega, by omega⟩

/-- The difference of two members of `S_W` lies in `S_(W+1)` (R23). -/
theorem sub_inS {w : Nat} (hw : 1 ≤ w) {a b : Int} (ha : InS w a) (hb : InS w b) :
    InS (w + 1) (a - b) := by
  have hs := two_pow_split hw
  obtain ⟨ha1, ha2⟩ := ha
  obtain ⟨hb1, hb2⟩ := hb
  constructor <;> simp only [Nat.add_sub_cancel] <;> omega

/-- Zero is a member of every `S_W`. -/
theorem zero_inS (w : Nat) : InS w 0 := by
  have : (1 : Int) ≤ 2 ^ (w - 1) := one_le_pow₀ (by norm_num)
  constructor <;> omega

/-- Every immediate is a member of `S_W` for `W >= 9` (R15). -/
theorem inS_of_byte {w : Nat} (hw : 9 ≤ w) {n : Nat} (hn : n < 256) : InS w (n : Int) :=
  InS.mono hw ⟨by norm_num, by norm_num; omega⟩

end Sys2Proof.Machine
end

