-- ==== Sys2Proof/Laws/PerInstr.lean ====
section
/-!
SUPPORT. Two facts per instruction as syntax: its opcode nibble (spec/40_encoder_decoder.md R76) and its
well-formedness (R73).
-/

namespace Sys2Proof.Laws

/-- The encoder's word of `i` carries the code of `i`'s mnemonic in nibble 0 (R76). -/
def OpcodeNibble.Statement (i : Instr) : Prop := (decode (encode i)).opcode = i.mnemonic.code

theorem packing_put_opcode (p : Packing) (h : 1 ≤ p.cursor) {n : Nat} (v : BitVec (4 * n))
    (hn : p.cursor + n ≤ 4) : (decode (p.put n v).word).opcode = (decode p.word).opcode := by
  simp only [decode, Packing.put, spanLow]
  ext k hk
  simp only [BitVec.getElem_extractLsb', BitVec.getLsbD_or, BitVec.getLsbD_and, BitVec.getLsbD_not,
    BitVec.getLsbD_shiftLeft, BitVec.getLsbD_setWidth, BitVec.getLsbD_allOnes]
  have h1 : ¬ (12 + k - (16 - 4 * p.cursor - 4 * n) < 4 * n) := by omega
  have h2 : v.getLsbD (12 + k - (16 - 4 * p.cursor - 4 * n)) = false :=
    BitVec.getLsbD_of_ge _ _ (by omega)
  simp [h1, h2]
  omega

theorem start_opcode (m : Mnemonic) : (decode (Packing.start.put 1 m.code).word).opcode = m.code := by
  cases m <;> decide

/-- Nibble 0 of a packed word is the opcode's code: no later write reaches it (R75, R76). -/
theorem pack_opcode (i : EncodeInput) : (decode (pack i)).opcode = i.op.code := by
  have h0 := start_opcode i.op
  unfold pack
  cases i.op.format with
  | n => exact h0
  | r => exact (packing_put_opcode _ (by simp [Packing.put]) _ (by simp [Packing.put, Packing.start])).trans h0
  | rr =>
    rw [packing_put_opcode _ (by simp [Packing.put]) _ (by simp [Packing.put, Packing.start]),
      packing_put_opcode _ (by simp [Packing.put]) _ (by simp [Packing.put, Packing.start]), h0]
  | rrr =>
    rw [packing_put_opcode _ (by simp [Packing.put]) _ (by simp [Packing.put, Packing.start]),
      packing_put_opcode _ (by simp [Packing.put]) _ (by simp [Packing.put, Packing.start]),
      packing_put_opcode _ (by simp [Packing.put]) _ (by simp [Packing.put, Packing.start]), h0]
  | ri =>
    rw [packing_put_opcode _ (by simp [Packing.put]) _ (by simp [Packing.put, Packing.start]),
      packing_put_opcode _ (by simp [Packing.put]) _ (by simp [Packing.put, Packing.start]), h0]
  | j => exact (packing_put_opcode _ (by simp [Packing.put]) _ (by simp [Packing.put, Packing.start])).trans h0

theorem OpcodeNibble.halt : Statement .halt := pack_opcode (Instr.toInput .halt)
theorem OpcodeNibble.loadi (r : RegIdx) (v : Imm) : Statement (.loadi r v) := pack_opcode (Instr.toInput (.loadi r v))
theorem OpcodeNibble.add (a b c : RegIdx) : Statement (.add a b c) := pack_opcode (Instr.toInput (.add a b c))
theorem OpcodeNibble.regdump (r : RegIdx) : Statement (.regdump r) := pack_opcode (Instr.toInput (.regdump r))
theorem OpcodeNibble.prompti (r : RegIdx) : Statement (.prompti r) := pack_opcode (Instr.toInput (.prompti r))
theorem OpcodeNibble.cmp (a b : RegIdx) : Statement (.cmp a b) := pack_opcode (Instr.toInput (.cmp a b))
theorem OpcodeNibble.jle (t : JumpAddr) : Statement (.jle t) := pack_opcode (Instr.toInput (.jle t))
theorem OpcodeNibble.jmp (t : JumpAddr) : Statement (.jmp t) := pack_opcode (Instr.toInput (.jmp t))
theorem OpcodeNibble.addi (r : RegIdx) (v : Imm) : Statement (.addi r v) := pack_opcode (Instr.toInput (.addi r v))
theorem OpcodeNibble.sub (a b c : RegIdx) : Statement (.sub a b c) := pack_opcode (Instr.toInput (.sub a b c))

/-! ### Well-formedness -/

/-- The numeric record of `i` passes the encoder's checks and stands for `i` (R73). -/
def ShapeWellFormed.Statement (i : Instr) : Prop := i.WellFormed

theorem checkReg_toNat (r : RegIdx) : checkReg (r.toNat : Int) = .ok r := by
  have h : (0 : Int) ≤ r.toNat ∧ (r.toNat : Int) < 16 := ⟨by omega, by have := r.isLt; omega⟩
  simp only [checkReg, if_pos h, Int.toNat_natCast, BitVec.ofNat_toNat, BitVec.setWidth_eq]

theorem checkImm_toNat (v : Imm) : checkImm (v.toNat : Int) = .ok v := by
  have h : (0 : Int) ≤ v.toNat ∧ (v.toNat : Int) < 256 := ⟨by omega, by have := v.isLt; omega⟩
  simp only [checkImm, if_pos h, Int.toNat_natCast, BitVec.ofNat_toNat, BitVec.setWidth_eq]

theorem checkAddr_toNat (t : JumpAddr) : checkAddr (t.toNat : Int) = .ok t := by
  have h : (0 : Int) ≤ t.toNat ∧ (t.toNat : Int) < 4096 := ⟨by omega, by have := t.isLt; omega⟩
  simp only [checkAddr, if_pos h, Int.toNat_natCast, BitVec.ofNat_toNat, BitVec.setWidth_eq]

theorem ShapeWellFormed.halt : Statement .halt := rfl
theorem ShapeWellFormed.loadi (r : RegIdx) (v : Imm) : Statement (.loadi r v) := by
  simp [Statement, Instr.WellFormed, Instr.toRaw, RawInstr.check, checkReg_toNat, checkImm_toNat, bind, Except.bind, Except.toOption]
theorem ShapeWellFormed.add (a b c : RegIdx) : Statement (.add a b c) := by
  simp [Statement, Instr.WellFormed, Instr.toRaw, RawInstr.check, checkReg_toNat, bind, Except.bind, Except.toOption]
theorem ShapeWellFormed.regdump (r : RegIdx) : Statement (.regdump r) := by
  simp [Statement, Instr.WellFormed, Instr.toRaw, RawInstr.check, checkReg_toNat, bind, Except.bind, Except.toOption]
theorem ShapeWellFormed.prompti (r : RegIdx) : Statement (.prompti r) := by
  simp [Statement, Instr.WellFormed, Instr.toRaw, RawInstr.check, checkReg_toNat, bind, Except.bind, Except.toOption]
theorem ShapeWellFormed.cmp (a b : RegIdx) : Statement (.cmp a b) := by
  simp [Statement, Instr.WellFormed, Instr.toRaw, RawInstr.check, checkReg_toNat, bind, Except.bind, Except.toOption]
theorem ShapeWellFormed.jle (t : JumpAddr) : Statement (.jle t) := by
  have h : (Instr.jle t).toRaw.check = Except.bind (checkAddr (t.toNat : Int)) fun a => .ok (.jle a) := rfl
  unfold Statement Instr.WellFormed
  rw [h, checkAddr_toNat]
  rfl
theorem ShapeWellFormed.jmp (t : JumpAddr) : Statement (.jmp t) := by
  have h : (Instr.jmp t).toRaw.check = Except.bind (checkAddr (t.toNat : Int)) fun a => .ok (.jmp a) := rfl
  unfold Statement Instr.WellFormed
  rw [h, checkAddr_toNat]
  rfl
theorem ShapeWellFormed.addi (r : RegIdx) (v : Imm) : Statement (.addi r v) := by
  simp [Statement, Instr.WellFormed, Instr.toRaw, RawInstr.check, checkReg_toNat, checkImm_toNat, bind, Except.bind, Except.toOption]
theorem ShapeWellFormed.sub (a b c : RegIdx) : Statement (.sub a b c) := by
  simp [Statement, Instr.WellFormed, Instr.toRaw, RawInstr.check, checkReg_toNat, bind, Except.bind, Except.toOption]

end Sys2Proof.Laws
end

