-- ==== Sys2Proof/Laws/State.lean ====
section
/-!
SUPPORT. One lemma per field and update of the state, and the reads of a register, of `W` and of the fetched
word through each update, so that no proof unfolds an update.
-/

namespace Sys2Proof.Machine

variable (s : State)

/-! ### writeReg -/

@[simp] theorem State.writeReg_x (r : RegIdx) (v : Int) : (s.writeReg r v).x = s.x.set r.toNat v r.isLt := rfl
@[simp] theorem State.writeReg_z (r : RegIdx) (v : Int) : (s.writeReg r v).z = s.z := rfl
@[simp] theorem State.writeReg_ip (r : RegIdx) (v : Int) : (s.writeReg r v).ip = s.ip := rfl
@[simp] theorem State.writeReg_running (r : RegIdx) (v : Int) : (s.writeReg r v).running = s.running := rfl
@[simp] theorem State.writeReg_fault (r : RegIdx) (v : Int) : (s.writeReg r v).fault = s.fault := rfl
@[simp] theorem State.writeReg_awaiting (r : RegIdx) (v : Int) : (s.writeReg r v).awaiting = s.awaiting := rfl
@[simp] theorem State.writeReg_mem (r : RegIdx) (v : Int) : (s.writeReg r v).mem = s.mem := rfl
@[simp] theorem State.writeReg_params (r : RegIdx) (v : Int) : (s.writeReg r v).params = s.params := rfl
@[simp] theorem State.writeReg_inputs (r : RegIdx) (v : Int) : (s.writeReg r v).inputs = s.inputs := rfl
@[simp] theorem State.writeReg_history (r : RegIdx) (v : Int) : (s.writeReg r v).history = s.history := rfl
@[simp] theorem State.writeReg_resetInput (r : RegIdx) (v : Int) : (s.writeReg r v).resetInput = s.resetInput := rfl

/-! ### writeZ -/

@[simp] theorem State.writeZ_x (v : Int) : (s.writeZ v).x = s.x := rfl
@[simp] theorem State.writeZ_z (v : Int) : (s.writeZ v).z = v := rfl
@[simp] theorem State.writeZ_ip (v : Int) : (s.writeZ v).ip = s.ip := rfl
@[simp] theorem State.writeZ_running (v : Int) : (s.writeZ v).running = s.running := rfl
@[simp] theorem State.writeZ_fault (v : Int) : (s.writeZ v).fault = s.fault := rfl
@[simp] theorem State.writeZ_awaiting (v : Int) : (s.writeZ v).awaiting = s.awaiting := rfl
@[simp] theorem State.writeZ_mem (v : Int) : (s.writeZ v).mem = s.mem := rfl
@[simp] theorem State.writeZ_params (v : Int) : (s.writeZ v).params = s.params := rfl
@[simp] theorem State.writeZ_inputs (v : Int) : (s.writeZ v).inputs = s.inputs := rfl
@[simp] theorem State.writeZ_history (v : Int) : (s.writeZ v).history = s.history := rfl
@[simp] theorem State.writeZ_resetInput (v : Int) : (s.writeZ v).resetInput = s.resetInput := rfl

/-! ### setIp -/

@[simp] theorem State.setIp_x (r : Ip) : (s.setIp r).x = s.x := rfl
@[simp] theorem State.setIp_z (r : Ip) : (s.setIp r).z = s.z := rfl
@[simp] theorem State.setIp_ip (r : Ip) : (s.setIp r).ip = r := rfl
@[simp] theorem State.setIp_running (r : Ip) : (s.setIp r).running = s.running := rfl
@[simp] theorem State.setIp_fault (r : Ip) : (s.setIp r).fault = s.fault := rfl
@[simp] theorem State.setIp_awaiting (r : Ip) : (s.setIp r).awaiting = s.awaiting := rfl
@[simp] theorem State.setIp_mem (r : Ip) : (s.setIp r).mem = s.mem := rfl
@[simp] theorem State.setIp_params (r : Ip) : (s.setIp r).params = s.params := rfl
@[simp] theorem State.setIp_inputs (r : Ip) : (s.setIp r).inputs = s.inputs := rfl
@[simp] theorem State.setIp_history (r : Ip) : (s.setIp r).history = s.history := rfl
@[simp] theorem State.setIp_resetInput (r : Ip) : (s.setIp r).resetInput = s.resetInput := rfl

/-! ### stop -/

@[simp] theorem State.stop_x : s.stop.x = s.x := rfl
@[simp] theorem State.stop_z : s.stop.z = s.z := rfl
@[simp] theorem State.stop_ip : s.stop.ip = s.ip := rfl
@[simp] theorem State.stop_running : s.stop.running = false := rfl
@[simp] theorem State.stop_fault : s.stop.fault = s.fault := rfl
@[simp] theorem State.stop_awaiting : s.stop.awaiting = s.awaiting := rfl
@[simp] theorem State.stop_mem : s.stop.mem = s.mem := rfl
@[simp] theorem State.stop_params : s.stop.params = s.params := rfl
@[simp] theorem State.stop_inputs : s.stop.inputs = s.inputs := rfl
@[simp] theorem State.stop_history : s.stop.history = s.history := rfl
@[simp] theorem State.stop_resetInput : s.stop.resetInput = s.resetInput := rfl

/-! ### raise -/

@[simp] theorem State.raise_x (f : FaultLatch) : (s.raise f).x = s.x := rfl
@[simp] theorem State.raise_z (f : FaultLatch) : (s.raise f).z = s.z := rfl
@[simp] theorem State.raise_ip (f : FaultLatch) : (s.raise f).ip = s.ip := rfl
@[simp] theorem State.raise_running (f : FaultLatch) : (s.raise f).running = s.running := rfl
@[simp] theorem State.raise_fault (f : FaultLatch) : (s.raise f).fault = f := rfl
@[simp] theorem State.raise_awaiting (f : FaultLatch) : (s.raise f).awaiting = s.awaiting := rfl
@[simp] theorem State.raise_mem (f : FaultLatch) : (s.raise f).mem = s.mem := rfl
@[simp] theorem State.raise_params (f : FaultLatch) : (s.raise f).params = s.params := rfl
@[simp] theorem State.raise_inputs (f : FaultLatch) : (s.raise f).inputs = s.inputs := rfl
@[simp] theorem State.raise_history (f : FaultLatch) : (s.raise f).history = s.history := rfl
@[simp] theorem State.raise_resetInput (f : FaultLatch) : (s.raise f).resetInput = s.resetInput := rfl

/-! ### record -/

@[simp] theorem State.record_x (e : Event) : (s.record e).x = s.x := rfl
@[simp] theorem State.record_z (e : Event) : (s.record e).z = s.z := rfl
@[simp] theorem State.record_ip (e : Event) : (s.record e).ip = s.ip := rfl
@[simp] theorem State.record_running (e : Event) : (s.record e).running = s.running := rfl
@[simp] theorem State.record_fault (e : Event) : (s.record e).fault = s.fault := rfl
@[simp] theorem State.record_awaiting (e : Event) : (s.record e).awaiting = s.awaiting := rfl
@[simp] theorem State.record_mem (e : Event) : (s.record e).mem = s.mem := rfl
@[simp] theorem State.record_params (e : Event) : (s.record e).params = s.params := rfl
@[simp] theorem State.record_inputs (e : Event) : (s.record e).inputs = s.inputs := rfl
@[simp] theorem State.record_history (e : Event) : (s.record e).history = s.history ++ [e] := rfl
@[simp] theorem State.record_resetInput (e : Event) : (s.record e).resetInput = s.resetInput := rfl

/-! ### requestInput -/

@[simp] theorem State.requestInput_x : s.requestInput.x = s.x := rfl
@[simp] theorem State.requestInput_z : s.requestInput.z = s.z := rfl
@[simp] theorem State.requestInput_ip : s.requestInput.ip = s.ip := rfl
@[simp] theorem State.requestInput_running : s.requestInput.running = s.running := rfl
@[simp] theorem State.requestInput_fault : s.requestInput.fault = s.fault := rfl
@[simp] theorem State.requestInput_awaiting : s.requestInput.awaiting = true := rfl
@[simp] theorem State.requestInput_mem : s.requestInput.mem = s.mem := rfl
@[simp] theorem State.requestInput_params : s.requestInput.params = s.params := rfl
@[simp] theorem State.requestInput_inputs : s.requestInput.inputs = s.inputs := rfl
@[simp] theorem State.requestInput_history : s.requestInput.history = s.history ++ [.request] := rfl
@[simp] theorem State.requestInput_resetInput : s.requestInput.resetInput = s.resetInput := rfl

/-! ### acceptInput -/

@[simp] theorem State.acceptInput_x (r : RegIdx) (v : Int) : (s.acceptInput r v).x = s.x.set r.toNat v r.isLt := rfl
@[simp] theorem State.acceptInput_z (r : RegIdx) (v : Int) : (s.acceptInput r v).z = s.z := rfl
@[simp] theorem State.acceptInput_ip (r : RegIdx) (v : Int) : (s.acceptInput r v).ip = s.ip := rfl
@[simp] theorem State.acceptInput_running (r : RegIdx) (v : Int) : (s.acceptInput r v).running = s.running := rfl
@[simp] theorem State.acceptInput_fault (r : RegIdx) (v : Int) : (s.acceptInput r v).fault = s.fault := rfl
@[simp] theorem State.acceptInput_awaiting (r : RegIdx) (v : Int) : (s.acceptInput r v).awaiting = false := rfl
@[simp] theorem State.acceptInput_mem (r : RegIdx) (v : Int) : (s.acceptInput r v).mem = s.mem := rfl
@[simp] theorem State.acceptInput_params (r : RegIdx) (v : Int) : (s.acceptInput r v).params = s.params := rfl
@[simp] theorem State.acceptInput_inputs (r : RegIdx) (v : Int) : (s.acceptInput r v).inputs = s.inputs.tail := rfl
@[simp] theorem State.acceptInput_history (r : RegIdx) (v : Int) : (s.acceptInput r v).history = s.history ++ [.input v] := rfl
@[simp] theorem State.acceptInput_resetInput (r : RegIdx) (v : Int) : (s.acceptInput r v).resetInput = s.resetInput := rfl

/-! ### applyReset -/

@[simp] theorem State.applyReset_x : s.applyReset.x = Vector.replicate 16 0 := rfl
@[simp] theorem State.applyReset_z : s.applyReset.z = s.params.zReset := rfl
@[simp] theorem State.applyReset_ip : s.applyReset.ip = 0 := rfl
@[simp] theorem State.applyReset_running : s.applyReset.running = true := rfl
@[simp] theorem State.applyReset_fault : s.applyReset.fault = .noFault := rfl
@[simp] theorem State.applyReset_awaiting : s.applyReset.awaiting = false := rfl
@[simp] theorem State.applyReset_mem : s.applyReset.mem = s.mem := rfl
@[simp] theorem State.applyReset_params : s.applyReset.params = s.params := rfl
@[simp] theorem State.applyReset_inputs : s.applyReset.inputs = [] := rfl
@[simp] theorem State.applyReset_history : s.applyReset.history = [] := rfl
@[simp] theorem State.applyReset_resetInput : s.applyReset.resetInput = false := rfl

/-! ### Reads through updates -/

@[simp] theorem State.readReg_writeReg_self (r : RegIdx) (v : Int) : (s.writeReg r v).readReg r = v := by
  simp [State.readReg]

theorem State.readReg_writeReg_other {r q : RegIdx} (v : Int) (h : q ≠ r) :
    (s.writeReg r v).readReg q = s.readReg q := by
  have hn : r.toNat ≠ q.toNat := fun e => h (BitVec.eq_of_toNat_eq e.symm)
  simp [State.readReg, Vector.getElem_set_ne, hn]

@[simp] theorem State.readReg_acceptInput (r q : RegIdx) (v : Int) :
    (s.acceptInput r v).readReg q = (s.writeReg r v).readReg q := rfl

@[simp] theorem State.readReg_applyReset (q : RegIdx) : s.applyReset.readReg q = 0 := by
  simp [State.readReg]

@[simp] theorem State.readReg_writeZ (v : Int) (q : RegIdx) : (s.writeZ v).readReg q = s.readReg q := rfl
@[simp] theorem State.readReg_setIp (r : Ip) (q : RegIdx) : (s.setIp r).readReg q = s.readReg q := rfl
@[simp] theorem State.readReg_stop (q : RegIdx) : s.stop.readReg q = s.readReg q := rfl
@[simp] theorem State.readReg_raise (f : FaultLatch) (q : RegIdx) : (s.raise f).readReg q = s.readReg q := rfl
@[simp] theorem State.readReg_record (e : Event) (q : RegIdx) : (s.record e).readReg q = s.readReg q := rfl
@[simp] theorem State.readReg_requestInput (q : RegIdx) : s.requestInput.readReg q = s.readReg q := rfl

@[simp] theorem State.width_writeReg (r : RegIdx) (v : Int) : (s.writeReg r v).width = s.width := rfl
@[simp] theorem State.fetch_writeReg (r : RegIdx) (v : Int) : (s.writeReg r v).fetch = s.fetch := rfl
@[simp] theorem State.width_writeZ (v : Int) : (s.writeZ v).width = s.width := rfl
@[simp] theorem State.fetch_writeZ (v : Int) : (s.writeZ v).fetch = s.fetch := rfl
@[simp] theorem State.width_setIp (r : Ip) : (s.setIp r).width = s.width := rfl
@[simp] theorem State.width_stop : s.stop.width = s.width := rfl
@[simp] theorem State.fetch_stop : s.stop.fetch = s.fetch := rfl
@[simp] theorem State.width_raise (f : FaultLatch) : (s.raise f).width = s.width := rfl
@[simp] theorem State.fetch_raise (f : FaultLatch) : (s.raise f).fetch = s.fetch := rfl
@[simp] theorem State.width_record (e : Event) : (s.record e).width = s.width := rfl
@[simp] theorem State.fetch_record (e : Event) : (s.record e).fetch = s.fetch := rfl
@[simp] theorem State.width_requestInput : s.requestInput.width = s.width := rfl
@[simp] theorem State.fetch_requestInput : s.requestInput.fetch = s.fetch := rfl
@[simp] theorem State.width_acceptInput (r : RegIdx) (v : Int) : (s.acceptInput r v).width = s.width := rfl
@[simp] theorem State.fetch_acceptInput (r : RegIdx) (v : Int) : (s.acceptInput r v).fetch = s.fetch := rfl
@[simp] theorem State.width_applyReset : s.applyReset.width = s.width := rfl

@[simp] theorem State.output_eq (n : Nat) (v : Int) : s.output n v = s.record (.output n v) := rfl

end Sys2Proof.Machine
end

