-- ==== Sys2Proof/Laws/Step.lean ====
section
/-!
SUPPORT. What each instruction answers, and what a step can do, said once (spec/41_engine_step.md R91 to R96).
-/

namespace Sys2Proof.Machine

/-! ### The meanings -/

theorem exec_halt (s : State) : exec .halt s = .next (s.stop.setIp s.nextIp) := rfl

theorem exec_loadi (r : RegIdx) (v : Imm) (s : State) :
    exec (.loadi r v) s = .next ((s.writeReg r (immOperand v)).setIp s.nextIp) := rfl

theorem exec_add (a b c : RegIdx) (s : State) :
    exec (.add a b c) s =
      .next ((s.writeReg a (wrap s.width (s.readReg b + s.readReg c))).setIp s.nextIp) := rfl

theorem exec_sub (a b c : RegIdx) (s : State) :
    exec (.sub a b c) s =
      .next ((s.writeReg a (wrap s.width (s.readReg b - s.readReg c))).setIp s.nextIp) := rfl

theorem exec_addi (r : RegIdx) (v : Imm) (s : State) :
    exec (.addi r v) s =
      .next ((s.writeReg r (wrap s.width (s.readReg r + immOperand v))).setIp s.nextIp) := rfl

theorem exec_regdump (r : RegIdx) (s : State) :
    exec (.regdump r) s = .next ((s.record (.output (sourceNumber r) (s.readReg r))).setIp s.nextIp) := rfl

theorem exec_cmp (a b : RegIdx) (s : State) :
    exec (.cmp a b) s = .next ((s.writeZ (s.readReg a - s.readReg b)).setIp s.nextIp) := rfl

theorem exec_jle (t : JumpAddr) (s : State) :
    exec (.jle t) s = .next (s.setIp (if s.z ≤ 0 then jumpTarget t else s.nextIp)) := by
  simp [exec, execJle, retire, lessOrEqual]

theorem exec_jmp (t : JumpAddr) (s : State) : exec (.jmp t) s = .next (s.setIp (jumpTarget t)) := rfl

theorem exec_prompti_request (r : RegIdx) {s : State} (h : s.awaiting = false) :
    exec (.prompti r) s = .next s.requestInput := by
  simp [exec, execPrompti, h]

theorem exec_prompti_pending (r : RegIdx) {s : State} (h : s.awaiting = true) :
    exec (.prompti r) s = completeInput r s := by
  simp [exec, execPrompti, h]

/-! ### The completion of a prompt -/

theorem completeInput_wait (r : RegIdx) {s : State} (h : s.inputs = []) : completeInput r s = .next s := by
  simp [completeInput, h]

theorem completeInput_accept (r : RegIdx) {s : State} {v : Int} {vs : List Int} (h : s.inputs = v :: vs)
    (hv : InS s.width v) : completeInput r s = .next ((s.acceptInput r v).setIp s.nextIp) := by
  simp only [completeInput, h, if_pos hv, retire]

theorem completeInput_refuse (r : RegIdx) {s : State} {v : Int} {vs : List Int} (h : s.inputs = v :: vs)
    (hv : ¬ InS s.width v) : completeInput r s = .refused (.promptValueOutOfRange v) := by
  simp only [completeInput, h, if_neg hv]

/-- All that a completion that answers a next state can have done. -/
theorem completeInput_cases {r : RegIdx} {s t : State} (h : completeInput r s = .next t) :
    (s.inputs = [] ∧ t = s) ∨
      ∃ v vs, s.inputs = v :: vs ∧ InS s.width v ∧ t = (s.acceptInput r v).setIp s.nextIp := by
  cases hi : s.inputs with
  | nil =>
    rw [completeInput_wait r hi] at h
    cases h
    exact .inl ⟨rfl, rfl⟩
  | cons v vs =>
    by_cases hv : InS s.width v
    · rw [completeInput_accept r hi hv] at h
      cases h
      exact .inr ⟨v, vs, rfl, hv, rfl⟩
    · rw [completeInput_refuse r hi hv] at h
      cases h

/-! ### The step -/

theorem step_reset {s : State} (h : s.resetInput = true) : step s = .next s.applyReset := by
  simp [step, cycle, h]

theorem step_halted {s : State} (h : s.resetInput = false) (hf : s.fault = .noFault)
    (hr : s.running = false) : step s = .fault .halted := by
  simp [step, cycle, h, hf, hr]

theorem step_fetchFault {s : State} (h : s.resetInput = false) (hf : s.fault = .fetchOutOfBounds) :
    step s = .fault (.fetchOutOfBounds s.ip) := by
  simp [step, cycle, h, hf]

theorem step_opcodeFault {s : State} (h : s.resetInput = false) (hf : s.fault = .unknownOpcode) :
    step s = .fault (.unknownOpcode s.ip s.fetch) := by
  simp [step, cycle, h, hf]

theorem step_ready {s : State} (h : s.resetInput = false) (hr : s.running = true)
    (hf : s.fault = .noFault) : step s = engineStep s := by
  simp [step, cycle, h, hr, hf]

theorem engineStep_none {s : State} (h : s.fetch = none) :
    engineStep s = .next (s.raise .fetchOutOfBounds) := by
  simp [engineStep, h]

theorem engineStep_pending {s : State} {w : Word} (h : s.fetch = some w) (ha : s.awaiting = true) :
    engineStep s = completeInput (decode w).reg1 s := by
  simp [engineStep, dispatchWord, h, ha]

theorem engineStep_exec {s : State} {w : Word} {i : Instr} (h : s.fetch = some w) (ha : s.awaiting = false)
    (hi : decodeInstr w = .ok i) : engineStep s = exec i s := by
  simp [engineStep, dispatchWord, h, ha, hi]

theorem engineStep_unknown {s : State} {w : Word} {e : DecodeReject} (h : s.fetch = some w)
    (ha : s.awaiting = false) (hi : decodeInstr w = .error e) :
    engineStep s = .next (s.raise .unknownOpcode) := by
  simp [engineStep, dispatchWord, h, ha, hi]

/-- All that a step which answers a next state can have done: the release of reset, a fault at fetch, the
completion of a pending prompt, a fault at dispatch, or the decoded instruction. -/
theorem step_cases {s t : State} (h : step s = .next t) :
    (s.resetInput = true ∧ t = s.applyReset) ∨
      (s.resetInput = false ∧ s.running = true ∧ s.fault = .noFault ∧
        ((s.fetch = none ∧ t = s.raise .fetchOutOfBounds) ∨
          ∃ w, s.fetch = some w ∧
            ((s.awaiting = true ∧ completeInput (decode w).reg1 s = .next t) ∨
              (s.awaiting = false ∧
                ((∃ e, decodeInstr w = .error e ∧ t = s.raise .unknownOpcode) ∨
                  ∃ i, decodeInstr w = .ok i ∧ exec i s = .next t))))) := by
  cases hreset : s.resetInput with
  | true =>
    rw [step_reset hreset] at h
    cases h
    exact .inl ⟨rfl, rfl⟩
  | false =>
    right
    cases hf : s.fault with
    | fetchOutOfBounds => rw [step_fetchFault hreset hf] at h; cases h
    | unknownOpcode => rw [step_opcodeFault hreset hf] at h; cases h
    | noFault =>
      cases hr : s.running with
      | false => rw [step_halted hreset hf hr] at h; cases h
      | true =>
        refine ⟨rfl, rfl, rfl, ?_⟩
        rw [step_ready hreset hr hf] at h
        cases hw : s.fetch with
        | none =>
          rw [engineStep_none hw] at h
          cases h
          exact .inl ⟨rfl, rfl⟩
        | some w =>
          refine .inr ⟨w, rfl, ?_⟩
          cases ha : s.awaiting with
          | true => exact .inl ⟨rfl, by rwa [engineStep_pending hw ha] at h⟩
          | false =>
            refine .inr ⟨rfl, ?_⟩
            cases hi : decodeInstr w with
            | error e =>
              rw [engineStep_unknown hw ha hi] at h
              cases h
              exact .inl ⟨e, rfl, rfl⟩
            | ok i =>
              rw [engineStep_exec hw ha hi] at h
              exact .inr ⟨i, rfl, h⟩

end Sys2Proof.Machine
end

