-- ==== Sys2Proof/Tests/Slice0.lean ====
section
/-!
SUPPORT. The model's own tests. Expected results are the words and tables of spec/95_test_vectors.md and the
encodings of spec/30_encoding.md; the witnesses show states that meet the hypotheses of the statements.
-/

namespace Sys2Proof.Tests

open Sys2Proof Sys2Proof.Machine

/-- What `f` reads in the next state, where the step answers one. -/
def after {α : Type} (f : State → α) (s : State) : Option α :=
  match step s with
  | .next t => some (f t)
  | .fault _ => none
  | .refused _ => none

/-- The instruction of a word. -/
def instrOf (w : Word) : Option Instr := (decodeInstr w).toOption

/-- A run at its start, on the short program `ws` and with host answers `vs`. -/
def onWith (ws : List Word) (vs : List Int) : State := { State.reset with mem := Memory.ofWords ws, inputs := vs }

/-- A run at its start, on the short program `ws` and without host answers. -/
def on (ws : List Word) : State := onWith ws []

/-! ### Well-formedness: each check refuses an ill-formed term -/

theorem test_wf_accepts : (RawInstr.mk .loadi [.reg 15, .imm 255]).wellFormed = true := by decide
theorem test_wf_register_16 : (RawInstr.mk .loadi [.reg 16, .imm 0]).wellFormed = false := by decide
theorem test_wf_register_minus_1 : (RawInstr.mk .regdump [.reg (-1)]).wellFormed = false := by decide
theorem test_wf_immediate_256 : (RawInstr.mk .addi [.reg 0, .imm 256]).wellFormed = false := by decide
theorem test_wf_address_4096 : (RawInstr.mk .jmp [.addr 4096]).wellFormed = false := by decide
theorem test_wf_shape : (RawInstr.mk .add [.reg 0, .reg 1]).wellFormed = false := by decide

/-! ### Decoding: a word of each constructor, written out bit by bit from R54's encoding -/

theorem test_decode_halt : instrOf 0b0000000000000000#16 = some .halt := by decide
theorem test_decode_loadi : instrOf 0b0001000000011011#16 = some (.loadi 0 27) := by decide
theorem test_decode_add : instrOf 0b0010001000000001#16 = some (.add 2 0 1) := by decide
theorem test_decode_regdump : instrOf 0b0011001010101011#16 = some (.regdump 2) := by decide
theorem test_decode_prompti : instrOf 0b0100111111111111#16 = some (.prompti 15) := by decide
theorem test_decode_cmp : instrOf 0b0101000000010000#16 = some (.cmp 0 1) := by decide
theorem test_decode_jle : instrOf 0b0110000100100011#16 = some (.jle 291) := by decide
theorem test_decode_jmp : instrOf 0b0111000000000011#16 = some (.jmp 3) := by decide
theorem test_decode_addi : instrOf 0b1000111111111111#16 = some (.addi 15 255) := by decide
theorem test_decode_sub : instrOf 0b1001101010111100#16 = some (.sub 10 11 12) := by decide
theorem test_decode_illegal : instrOf 0b1010000000000000#16 = none ∧ instrOf 0xFFFF#16 = none := by decide

/-- The full record of example S3. -/
theorem test_decode_record :
    decode 0x101B#16 = ⟨1#4, 0#4, 1#4, 11#4, 27#8, 27#12, 0x101B#16⟩ := by decide

/-! ### Encoding (table 2.1) -/

theorem test_encode_words :
    encode .halt = 0x0FFF#16 ∧ encode (.loadi 15 255) = 0x1FFF#16 ∧ encode (.add 2 0 1) = 0x2201#16 ∧
      encode (.regdump 15) = 0x3FFF#16 ∧ encode (.prompti 0) = 0x40FF#16 ∧ encode (.cmp 0 1) = 0x501F#16 ∧
      encode (.jle 4095) = 0x6FFF#16 ∧ encode (.jmp 3) = 0x7003#16 ∧ encode (.addi 0 1) = 0x8001#16 ∧
      encode (.sub 2 0 1) = 0x9201#16 := by decide
theorem test_canonical : canonical 0x501F#16 = true ∧ canonical 0x5010#16 = false := by decide

/-! ### Arithmetic (table 2.3) -/

theorem test_loadi_zero_extends : after (·.readReg 0) (on [0x10FF]) = some 255 := by decide
theorem test_add_wraps :
    after (·.readReg 0) (((on [0x2012]).writeReg 1 32767).writeReg 2 1) = some (-32768) := by decide
theorem test_add_destination_is_source :
    after (·.readReg 0) (((on [0x2010]).writeReg 0 3).writeReg 1 4) = some 7 := by decide
theorem test_sub_order : after (·.readReg 0) (((on [0x9012]).writeReg 1 5).writeReg 2 10) = some (-5) := by
  decide
theorem test_sub_negates_minimum : after (·.readReg 0) ((on [0x9012]).writeReg 2 (-32768)) = some (-32768) := by
  decide
theorem test_addi_wraps : after (·.readReg 0) ((on [0x80FF]).writeReg 0 32767) = some (-32514) := by decide
theorem test_addi_keeps_z : after (fun t => (t.z, t.ip)) (((on [0x8001]).writeZ 7)) = some (7, 1#13) := by
  decide

/-! ### Compare and branch (table 2.4) -/

theorem test_cmp_less :
    after (fun t => (t.z, t.ip)) (((on [0x5010]).writeReg 0 1).writeReg 1 3) = some (-2, 1#13) := by decide
theorem test_cmp_exact :
    after State.z (((on [0x501F]).writeReg 0 (-32768)).writeReg 1 32767) = some (-65535) := by decide
theorem test_jle_taken_on_equality : after State.ip ((on [0x6002]).writeZ 0) = some 2#13 := by decide
theorem test_jle_not_taken : after State.ip ((on [0x6FFF]).writeZ 65535) = some 1#13 := by decide
theorem test_jmp_largest : after State.ip (on [0x7FFF]) = some 4095#13 := by decide

/-! ### System and I/O (table 2.5) -/

theorem test_halt : after (fun t => (t.running, t.ip, t.exitCode)) (on [0x0000]) = some (false, 1#13, some 0) := by
  decide
theorem test_regdump_message :
    after (fun t => messages t.history) ((on [0x3FFF]).writeReg 15 (-1)) =
      some [['R', 'E', 'G', 'D', 'U', 'M', 'P', ' ', 'o', 'f', ' ', 'r', 'e', 'g', ' ', '1', '6', ':', ' ', '-', '1']] := by
  decide
theorem test_prompti_request :
    after (fun t => (t.awaiting, t.ip, t.inputs)) (onWith [0x40FF] [4]) = some (true, 0#13, [4]) := by decide
theorem test_prompti_completion :
    after (fun t => (t.readReg 15, t.awaiting, t.ip, t.inputs)) (onWith [0x4FFF] [-32768, 5]).requestInput =
      some (-32768, false, 1#13, [5]) := by decide

/-! ### Faults (table 2.6) -/

theorem test_fault_empty_program :
    after (fun t => (t.fault, t.ip, t.running, t.exitCode)) State.reset =
      some (.fetchOutOfBounds, 0#13, true, some 1) := by decide
theorem test_fault_unknown_opcode :
    after (fun t => (t.fault, t.ip, t.running, t.exitCode)) (on [0xA000]) =
      some (.unknownOpcode, 0#13, true, some 2) := by decide
theorem test_blank_location_is_illegal : (Memory.ofWords [0x1007, 0xFFFF]).read 1 = some 0xFFFF#16 := by decide

/-! ### The host's interface -/

theorem test_table_word : decodeTableWord 16 0x9ABC = some (.sub 10 11 12) := by decide
theorem test_placed_word :
    after (fun t => (t.readReg 0, t.ip)) (State.reset.withFetchWord 16 0x101B) = some (27, 1#13) := by decide
theorem test_file_order : programOfFile .little [0xFF#8, 0x0F#8] = some [0x0FFF#16] := by decide

/-- U17: a program of 4097 words is refused at load. -/
theorem test_program_too_long :
    boot (List.replicate 4097 0x0FFF) [] = .error (.programTooLong 4097) := by
  have h : (List.replicate 4097 (0x0FFF : Word)).length = 4097 := List.length_replicate
  unfold boot
  rw [loadProgram_tooLong (lt_of_lt_of_eq (by decide : Config.maxProgram < 4097) h.symm), h]

/-- D12: an opcode outside the ten is an encoder error. -/
theorem test_encoder_unknown_opcode :
    emit [] [⟨['N', 'O', 'P'], []⟩, ⟨['H', 'A', 'L', 'T'], []⟩] =
      ([0x0FFF#16], [.unknownOpcode ['N', 'O', 'P']]) := by decide

/-! ### The assembler (examples S3, S4, S5, S6 of part 1) -/

/-- Example S3: `LOADI reg1 #27`. -/
theorem test_compile_loadi :
    (compile ['L', 'O', 'A', 'D', 'I', ' ', 'r', 'e', 'g', '1', ' ', '#', '2', '7']).program = some [0x101B#16] := by
  decide

/-- Example S4, forward: `JMP t`, `HALT`, `t:`, `HALT`. -/
theorem test_compile_jump :
    (compile ['J', 'M', 'P', ' ', 't', '\n', 'H', 'A', 'L', 'T', '\n', 't', ':', ' ', 'H', 'A', 'L', 'T']).program =
      some [0x7002#16, 0x0FFF#16, 0x0FFF#16] := by decide

/-- Example S5: `a: HALT a: HALT`. -/
theorem test_compile_duplicate_label :
    compile ['a', ':', ' ', 'H', 'A', 'L', 'T', ' ', 'a', ':', ' ', 'H', 'A', 'L', 'T'] =
      { program := none, errors := [.semantic (.duplicateLabel ['a'])] } := by decide

/-- R61: `#` with no digit; R60: the rest of the line is a comment. -/
theorem test_lexer_errors :
    (tokenize ['#', ' ', ';', '$', '\n', '$']).errors =
      [⟨1, .expectedImmediateValue⟩, ⟨2, .unexpectedCharacter '$'⟩] := by decide

/-- R67: a missing argument, and recovery at the next opcode word. -/
theorem test_parser_recovers :
    (compile ['A', 'D', 'D', ' ', 'r', 'e', 'g', '1', '\n', 'H', 'A', 'L', 'T']).errors =
      [.syntactic (.missingArgument .add 1 .register)] := by decide

/-! ### Witnesses: states and operands that meet the hypotheses of the statements -/

theorem witness_DecodeOfEncode : (Instr.sub 15 15 15).WellFormed ∧ (Instr.jle 4095).WellFormed := by decide
theorem witness_EncodeOfDecode : Mnemonic.ofCode (decode 0x32AB#16).opcode = some .regdump := by decide
theorem witness_PutReplacesItsSpan :
    let p : Packing := ⟨0x1FFF#16, 1⟩
    1 ≤ 2 ∧ 2 ≤ 3 ∧ p.cursor + 2 ≤ 4 ∧ 11 + 4 * p.cursor = 15 ∧ 4 + 4 * 2 = 11 + 1 ∧ 11 < 16 := by decide
theorem witness_UnusedNibblesIgnored :
    Mnemonic.ofCode (decode 0x5010#16).opcode = some .cmp ∧
      0x5010#16 ||| Mnemonic.cmp.format.filler = 0x501F#16 ||| Mnemonic.cmp.format.filler := by decide
theorem witness_compiled :
    (compile ['H', 'A', 'L', 'T']).program = some [0x0FFF#16] ∧
      (parse (tokenize ['H', 'A', 'L', 'T']).tokens).instrs[0]? = some ⟨['H', 'A', 'L', 'T'], []⟩ := by decide
theorem witness_ValidatedProgramsAreInRange :
    validate [⟨mnemonicText .loadi, [⟨.register 15, 1, []⟩, ⟨.immediate 255, 1, []⟩]⟩, ⟨mnemonicText .jmp, [⟨.opcodeWord, 1, ['a']⟩]⟩]
      [⟨['a'], 4095⟩] = [] := by decide
theorem witness_RegisterTokens : ['1', '6'] ≠ [] ∧ ['1', '6'].all isDigitChar = true := by decide
theorem witness_LabelTakesNoSlot :
    (⟨.jumpLabel ['a'], 1, []⟩ : Token).content = .jumpLabel ['a'] ∧
      (([⟨.opcodeWord, 1, ['H', 'A', 'L', 'T']⟩] : List Token).foldl ParseState.token .start).mode = .ready := by
  decide
theorem witness_EncoderErrors :
    (∀ op : Mnemonic, ['N', 'O', 'P'] ≠ mnemonicText op) ∧ Mnemonic.jmp.format = .j ∧
      (⟨.opcodeWord, 1, ['a']⟩ : Token).content = .opcodeWord ∧ labelIndex [] ['a'] = none ∧
      labelIndex [⟨['a'], 4096⟩] ['a'] = some 4096 ∧
      emitOne [] ⟨['N', 'O', 'P'], []⟩ = .error (.unknownOpcode ['N', 'O', 'P']) :=
  ⟨fun op => by cases op <;> decide, rfl, rfl, rfl, rfl, rfl⟩
theorem witness_width : 9 ≤ State.reset.width := by decide
theorem witness_AddWraps_exact :
    InS State.reset.width ((State.reset.writeReg 1 32767).readReg 1 + (State.reset.writeReg 1 32767).readReg 2) := by
  decide
theorem witness_SubWraps_exact : InS State.reset.width (State.reset.readReg 1 - State.reset.readReg 2) := by decide
theorem witness_AddiWraps_exact : InS State.reset.width (State.reset.readReg 1 + ((255#8).toNat : Int)) := by decide
theorem witness_CmpIsExact_range :
    InS State.reset.width ((State.reset.writeReg 0 (-32768)).readReg 0) ∧
      InS State.reset.width ((State.reset.writeReg 1 32767).readReg 1) := by decide
theorem witness_JleBranches : (State.reset.writeZ 0).z ≤ 0 ∧ 0 < (State.reset.writeZ 1).z := by decide
theorem witness_ignored_nibbles :
    (0x0123#16).toNat < 0x1000 ∧ (decode 0x32AB#16).opcode = 0x3#4 ∧ (decode 0x5010#16).opcode = 0x5#4 := by decide
theorem witness_DecimalNumerals : (10 : Nat) ≠ 0 ∧ (-5 : Int) < 0 := by decide
theorem witness_PromptiRequests : State.reset.awaiting = false := by decide
theorem witness_PromptiCompletes :
    let s := (onWith [0x40FF] [-32768]).requestInput
    s.awaiting = true ∧ s.inputs = [-32768] ∧ InS s.width (-32768) := by decide
theorem witness_PromptiRefusesWideValue :
    let s := (onWith [0x40FF] [32768]).requestInput
    s.awaiting = true ∧ s.inputs = [32768] ∧ ¬ InS s.width 32768 := by decide
theorem witness_ExecutorsNeverFault : ∀ v ∈ (onWith [0x40FF] [4]).inputs, InS (onWith [0x40FF] [4]).width v := by
  decide

theorem ready_boot (ws : List Word) (vs : List Int) : Ready (onWith ws vs) := ⟨rfl, rfl, rfl⟩
theorem ordinary_boot (ws : List Word) (vs : List Int) : Ordinary (onWith ws vs) := ⟨ready_boot ws vs, rfl⟩

theorem witness_StepRunsDecodedInstruction :
    Ordinary (on [0x101B]) ∧ FetchesInstr (on [0x101B]) (.loadi 0 27) ∧ (Instr.loadi 0 27).WellFormed :=
  ⟨ordinary_boot _ _, ⟨0x101B, rfl, rfl⟩, by decide⟩
theorem witness_StepRunsPendingPrompt :
    Ready (on [0x40FF]).requestInput ∧ (on [0x40FF]).requestInput.awaiting = true ∧
      FetchesInstr (on [0x40FF]).requestInput (.prompti 0) :=
  ⟨⟨rfl, rfl, rfl⟩, rfl, 0x40FF, rfl, rfl⟩
theorem witness_FetchOutOfBoundsRaised :
    Ready State.reset ∧ State.reset.mem.size ≤ State.reset.ip.toNat ∧
      (on [0x0FFF]).ip.toNat < (on [0x0FFF]).mem.size :=
  ⟨⟨rfl, rfl, rfl⟩, by decide, by decide⟩
theorem witness_UnknownOpcodeRaised :
    Ordinary (on [0xA000]) ∧ (on [0xA000]).fetch = some 0xA000#16 ∧ 0xA ≤ (decode 0xA000#16).opcode.toNat :=
  ⟨ordinary_boot _ _, rfl, by decide⟩
theorem witness_EndOfRunReport :
    State.reset.resetInput = false ∧ State.reset.stop.running = false ∧ State.reset.stop.fault = .noFault ∧
      (State.reset.raise .fetchOutOfBounds).fault = .fetchOutOfBounds ∧
      (State.reset.raise .unknownOpcode).fault = .unknownOpcode ∧ Ready State.reset :=
  ⟨rfl, rfl, rfl, rfl, rfl, rfl, rfl, rfl⟩
theorem witness_ZIsCmpToJleOnly :
    let s := ((on [0x501F]).writeReg 0 1).writeReg 1 3
    (∃ t, step s = .next t ∧ s.resetInput = false ∧ t.z ≠ s.z) ∧ (∃ t, exec (.jle 5) s = .next t) ∧
      ∃ t, (Instr.cmp 0 1).mnemonic ≠ .jle ∧ exec (.cmp 0 1) s = .next t :=
  ⟨⟨_, rfl, rfl, by decide⟩, ⟨_, rfl⟩, _, by decide, rfl⟩
theorem witness_OnlyHaltClearsRunning :
    (∃ t, step (on [0x0FFF]) = .next t ∧ (on [0x0FFF]).resetInput = false ∧ t.running ≠ (on [0x0FFF]).running) ∧
      ∃ a t, hostMove .reset (on [0x0FFF]).stop = .next a ∧ a.resetInput = true ∧ step a = .next t :=
  ⟨⟨_, rfl, rfl, by decide⟩, _, _, rfl, rfl, rfl⟩
theorem witness_RegisterWriters :
    ((on [0x101B]).awaiting = true → ∃ q, FetchesInstr (on [0x101B]) (.prompti q)) ∧
      (∃ t, step (on [0x101B]) = .next t ∧ (on [0x101B]).resetInput = false ∧ t.readReg 0 ≠ (on [0x101B]).readReg 0) ∧
      (∃ q, FetchesInstr (onWith [0x40FF] [4]).requestInput (.prompti q)) ∧
      ∃ t, step (onWith [0x40FF] [4]).requestInput = .next t ∧
        (onWith [0x40FF] [4]).requestInput.resetInput = false ∧
        t.readReg 0 ≠ (onWith [0x40FF] [4]).requestInput.readReg 0 :=
  ⟨fun h => absurd h (by decide), ⟨_, rfl, rfl, by decide⟩, ⟨0, 0x40FF, rfl, rfl⟩, _, rfl, rfl, by decide⟩
theorem witness_LatchIsSticky :
    (∃ t, step State.reset = .next t ∧ State.reset.resetInput = false ∧ t.fault ≠ State.reset.fault) ∧
      (State.reset.raise .unknownOpcode).fault ≠ .noFault ∧ (State.reset.raise .unknownOpcode).resetInput = false ∧
      ∃ a t, hostMove .reset (State.reset.raise .unknownOpcode) = .next a ∧ a.resetInput = true ∧ step a = .next t :=
  ⟨⟨_, rfl, rfl, by decide⟩, by decide, rfl, _, _, rfl, rfl, rfl⟩
theorem witness_run_of_one_step : ∃ t, Host.Core.run Sys2Proof.core 1 (on [0x32FF]) = .next t := ⟨_, rfl⟩
theorem witness_AtMostOneEvent : ∃ t, step (on [0x32FF]) = .next t ∧ (on [0x32FF]).resetInput = false := ⟨_, rfl, rfl⟩

/-- The invariant holds at the start of a run that prompts. -/
theorem inv_boot_prompt : Inv (onWith [0x40FF] [4]) where
  width := by decide
  store := by decide
  zReset := by decide
  regs := fun r => by
    have h : (onWith [0x40FF] [4]).readReg r = 0 := by simp [onWith, State.readReg, State.reset]
    rw [h]
    decide
  z := by decide
  ip := by decide
  fault := by decide
  halt := by decide
  reset := by decide
  fetchFault := by decide
  opcodeFault := fun h => absurd h (by decide)
  prompt := fun h => absurd h (by decide)
  prompts := by decide
  events := fun e h => by cases h

theorem witness_StepKeepsInvariant :
    Inv (onWith [0x40FF] [4]) ∧ ∃ t, step (onWith [0x40FF] [4]) = .next t := ⟨inv_boot_prompt, _, rfl⟩
theorem witness_HostKeepsInvariant :
    Inv (onWith [0x40FF] [4]) ∧ (∃ t, hostMove .reset (onWith [0x40FF] [4]) = .next t) ∧
      ∃ t, hostMove (.answer 5) (onWith [0x40FF] [4]) = .next t := ⟨inv_boot_prompt, ⟨_, rfl⟩, _, rfl⟩
theorem witness_EnabledMachineSteps :
    Inv (onWith [0x40FF] [4]) ∧ Ready (onWith [0x40FF] [4]) ∧
      ∀ v ∈ (onWith [0x40FF] [4]).inputs, InS (onWith [0x40FF] [4]).width v :=
  ⟨inv_boot_prompt, ready_boot _ _, by decide⟩
theorem witness_RunsCarryNothingOver :
    (on [0x0FFF]).mem = ((on [0x0FFF]).writeReg 3 9).mem ∧ (on [0x0FFF]).params = ((on [0x0FFF]).writeReg 3 9).params ∧
      (on [0x0FFF]) ≠ (on [0x0FFF]).writeReg 3 9 := by decide
theorem witness_LateAnswerNotConsumed :
    (on [0x40FF]).requestInput.awaiting = true ∧ InS (on [0x40FF]).requestInput.width 4 ∧
      ∃ a t, hostMove .reset (on [0x40FF]).requestInput = .next a ∧ step a = .next t :=
  ⟨rfl, by decide, _, _, rfl, rfl⟩
theorem witness_HostLoadsInReset :
    State.reset.resetInput = false ∧ (∃ a, hostMove .reset State.reset = .next a ∧ a.resetInput = true) ∧
      (List.replicate 4096 (0x0FFF#16)).length ≤ 4096 ∧ 4096 < (List.replicate 4097 (0x0FFF#16)).length :=
  ⟨rfl, ⟨_, rfl, rfl⟩, le_of_eq List.length_replicate, lt_of_lt_of_eq (by decide) List.length_replicate.symm⟩
theorem witness_StoreReadAfterWrite : (Memory.ofWords [0x0FFF, 0xFFFF]).wf = true ∧ 1 < (Memory.ofWords [0x0FFF, 0xFFFF]).size := by
  decide
theorem witness_PlacedWordRuns : decodeTableWord 16 0x101B = some (.loadi 0 27) := by decide
theorem witness_CmpThenJle :
    Ordinary (on [0x501F, 0x6000]) ∧ FetchesInstr (on [0x501F, 0x6000]) (.cmp 0 1) ∧
      (on [0x501F, 0x6000]).mem.read ((on [0x501F, 0x6000]).ip + 1).toNat = some 0x6000#16 ∧
      decodeInstr 0x6000#16 = .ok (.jle 0) :=
  ⟨ordinary_boot _ _, ⟨0x501F, rfl, rfl⟩, rfl, rfl⟩
theorem witness_JumpBeyondTheEnd :
    Ordinary (on [0x7005, 0x0FFF]) ∧ FetchesInstr (on [0x7005, 0x0FFF]) (.jmp 5) ∧
      (on [0x7005, 0x0FFF]).mem.size ≤ (5#12).toNat ∧
      Ordinary (on [0x6001]) ∧ FetchesInstr (on [0x6001]) (.jle 1) ∧ (on [0x6001]).z ≤ 0 ∧
      (on [0x6001]).mem.size ≤ (1#12).toNat :=
  ⟨ordinary_boot _ _, ⟨0x7005, rfl, rfl⟩, by decide, ordinary_boot _ _, ⟨0x6001, rfl, rfl⟩, by decide, by decide⟩
theorem witness_RunningOffTheEnd :
    Ordinary (on [0x1001]) ∧ FetchesInstr (on [0x1001]) (.loadi 0 1) ∧
      (on [0x1001]).ip.toNat + 1 = (on [0x1001]).mem.size ∧ (on [0x1001]).mem.size ≤ 4096 ∧
      (Instr.loadi 0 1).mnemonic ∈ [.loadi, .add, .sub, .addi, .cmp, .regdump] ∧
      Ordinary (on [0x0FFF]) ∧ FetchesInstr (on [0x0FFF]) .halt :=
  ⟨ordinary_boot _ _, ⟨0x1001, rfl, rfl⟩, by decide, by decide, by decide, ordinary_boot _ _, 0x0FFF, rfl, rfl⟩
theorem witness_RunningOffTheEnd_branch :
    Ordinary ((on [0x6000]).writeZ 1) ∧ FetchesInstr ((on [0x6000]).writeZ 1) (.jle 0) ∧
      0 < ((on [0x6000]).writeZ 1).z ∧ ((on [0x6000]).writeZ 1).ip.toNat + 1 = ((on [0x6000]).writeZ 1).mem.size :=
  ⟨⟨⟨rfl, rfl, rfl⟩, rfl⟩, ⟨0x6000, rfl, rfl⟩, by decide, by decide⟩
theorem witness_RunningOffTheEnd_prompt :
    let s := (onWith [0x40FF] [4]).requestInput
    Ready s ∧ s.awaiting = true ∧ FetchesInstr s (.prompti 0) ∧ s.inputs = [4] ∧ InS s.width 4 ∧
      s.ip.toNat + 1 = s.mem.size ∧ s.mem.size ≤ 4096 :=
  ⟨⟨rfl, rfl, rfl⟩, rfl, ⟨0x40FF, rfl, rfl⟩, rfl, by decide, by decide, by decide⟩
theorem witness_AnswerCompletesPrompt :
    let s := (on [0x40FF]).requestInput
    Ready s ∧ s.awaiting = true ∧ s.inputs = [] ∧ FetchesInstr s (.prompti 0) ∧ InS s.width (-32768) ∧
      ¬ InS s.width 32768 :=
  ⟨⟨rfl, rfl, rfl⟩, rfl, rfl, ⟨0x40FF, rfl, rfl⟩, by decide, by decide⟩
theorem witness_ProgramRuns :
    4096 < (List.replicate 4097 (0x0FFF#16)).length ∧ (List.replicate 4096 (0x0FFF#16)).length ≤ 4096 ∧
      ∃ t, runProgram 1 [0x0FFF] [] = .ended t ∧ t.exitCode = some 0 :=
  ⟨lt_of_lt_of_eq (by decide) List.length_replicate.symm, le_of_eq List.length_replicate, _, rfl, rfl⟩
theorem witness_PromptInTwoSteps :
    Ordinary (onWith [0x40FF] [4]) ∧ FetchesInstr (onWith [0x40FF] [4]) (.prompti 0) ∧
      (onWith [0x40FF] [4]).inputs = [4] ∧ InS (onWith [0x40FF] [4]).width 4 :=
  ⟨ordinary_boot _ _, ⟨0x40FF, rfl, rfl⟩, rfl, by decide⟩
theorem witness_PromptWaitsForEver :
    Ready (on [0x40FF]).requestInput ∧ (on [0x40FF]).requestInput.awaiting = true ∧
      (on [0x40FF]).requestInput.inputs = [] ∧
      (on [0x40FF]).requestInput.ip.toNat < (on [0x40FF]).requestInput.mem.size :=
  ⟨⟨rfl, rfl, rfl⟩, rfl, rfl, by decide⟩

end Sys2Proof.Tests
end

section
/-!
PROOFS. The invariant of the machine, one rule per operation on the state: each update of a state that meets
`Inv` gives one that meets it (R15, R19, R23, R25, R26, R113, R125, R131). The step is then a composition of these rules.
-/

namespace Sys2Proof.Machine

section
variable {s t : State}

/-! ### The bounds the rules need -/

theorem Inv.one_le_width (hs : Inv s) : 1 ≤ s.width :=
  le_trans (by decide) hs.width

/-- A fetched word lies inside the store, so the sequential successor does not pass 4096 (R19, R20). -/
theorem Inv.nextIp_le (hs : Inv s) {w : Word} (hw : s.fetch = some w) : s.nextIp.toNat ≤ Config.maxProgram := by
  have hsize : s.mem.size ≤ Config.maxProgram := ((Memory.wf_iff s.mem).1 hs.store).2.2
  have hlt : s.ip.toNat < s.mem.size := by
    by_contra hge
    have hnone : s.fetch = none := (Memory.read_eq_none_iff s.mem s.ip.toNat).2 (Nat.le_of_not_lt hge)
    simp [hnone] at hw
  have hmod : s.nextIp.toNat = (s.ip.toNat + 1) % 8192 := by simp [State.nextIp, BitVec.toNat_add]
  simp only [Config.maxProgram] at hsize ⊢
  omega

/-- A jump address has twelve bits, so its target is at most 4095 (R53). -/
theorem jumpTarget_le (a : JumpAddr) : (jumpTarget a).toNat ≤ Config.maxProgram := by
  have ha : a.toNat < 4096 := a.isLt
  have hmod : (jumpTarget a).toNat = a.toNat % 8192 := by simp [jumpTarget, BitVec.toNat_setWidth]
  simp only [Config.maxProgram]
  omega

/-- A word without an instruction has an opcode from `0xA` on (R55, R94). -/
theorem opcode_ge_of_decodeInstr_error {w : Word} {e : DecodeReject} (h : decodeInstr w = .error e) :
    0xA ≤ (decode w).opcode.toNat := by
  rw [← ofCode_eq_none_iff]
  cases hop : Mnemonic.ofCode (decode w).opcode with
  | none => rfl
  | some m => cases m <;> simp [decodeInstr, Decoded.instr, hop] at h

/-! ### The counts of a history that grows by one event -/

theorem requestCount_append (h : List Event) (e : Event) :
    requestCount (h ++ [e]) = requestCount h + if e = .request then 1 else 0 := by
  simp [requestCount, List.countP_append, List.countP_singleton]

theorem inputCount_append (h : List Event) (e : Event) :
    inputCount (h ++ [e]) = inputCount h + if e.isInput then 1 else 0 := by
  simp [inputCount, List.countP_append, List.countP_singleton]

theorem Inv.events_append (hs : Inv s) {e : Event} (he : eventOk s.width e) :
    ∀ e' ∈ s.history ++ [e], eventOk s.width e' := by
  intro e' hmem
  rcases List.mem_append.1 hmem with hold | hnew
  · exact hs.events e' hold
  · rwa [List.mem_singleton.1 hnew]

/-! ### One rule per operation -/

/-- All registers stay in `S_W` when a member of `S_W` is written (R15). -/
theorem Inv.regs_writeReg (hs : Inv s) (r : RegIdx) {v : Int} (hv : InS s.width v) (q : RegIdx) :
    InS s.width ((s.writeReg r v).readReg q) := by
  by_cases hq : q = r
  · rwa [hq, State.readReg_writeReg_self]
  · rw [State.readReg_writeReg_other s v hq]
    exact hs.regs q

theorem Inv.writeReg (hs : Inv s) (r : RegIdx) {v : Int} (hv : InS s.width v) : Inv (s.writeReg r v) :=
  { hs with regs := hs.regs_writeReg r hv }

theorem Inv.writeZ (hs : Inv s) {v : Int} (hv : InS (s.width + 1) v) : Inv (s.writeZ v) :=
  { hs with z := hv }

/-- Moving `ip` keeps the invariant where no clause speaks of the word at `ip`: without a fault and without a
pending prompt. -/
theorem Inv.setIp (hs : Inv s) (hf : s.fault = .noFault) (ha : s.awaiting = false) {r : Ip}
    (hr : r.toNat ≤ Config.maxProgram) : Inv (s.setIp r) :=
  { hs with
    ip := hr
    fetchFault := fun h => by simp [hf] at h
    opcodeFault := fun h => by simp [hf] at h
    prompt := fun h => by simp [ha] at h }

theorem Inv.stop (hs : Inv s) (hf : s.fault = .noFault) (ha : s.awaiting = false) : Inv s.stop :=
  { hs with
    fault := fun h => absurd hf h
    halt := fun _ => ha }

theorem Inv.record_output (hs : Inv s) {n : Nat} {v : Int} (he : eventOk s.width (.output n v)) :
    Inv (s.record (.output n v)) :=
  { hs with
    prompts := by
      rw [State.record_history, requestCount_append, inputCount_append]
      exact hs.prompts
    events := hs.events_append he }

/-- The request of a PROMPTI opens one prompt (R113). -/
theorem Inv.requestInput (hs : Inv s) (ho : Ordinary s) {r : RegIdx} (hi : FetchesInstr s (.prompti r)) :
    Inv s.requestInput := by
  obtain ⟨⟨hreset, hrun, hf⟩, ha⟩ := ho
  exact { hs with
    fault := fun h => absurd hf h
    halt := fun h => by simp [hrun] at h
    reset := fun h => by simp [hreset] at h
    prompt := fun _ => ⟨r, hi⟩
    prompts := by
      have hp := hs.prompts
      simp only [State.requestInput_history, State.requestInput_awaiting, requestCount_append, inputCount_append]
      simpa [ha, Event.isInput] using hp
    events := hs.events_append trivial }

/-- The completion of a PROMPTI answers the one open prompt (R113). -/
theorem Inv.acceptInput (hs : Inv s) (ha : s.awaiting = true) (r : RegIdx) {v : Int} (hv : InS s.width v) :
    Inv (s.acceptInput r v) :=
  { hs with
    regs := hs.regs_writeReg r hv
    fault := fun h => ⟨(hs.fault h).1, rfl⟩
    halt := fun _ => rfl
    reset := fun h => ⟨rfl, (hs.reset h).2⟩
    prompt := fun h => by simp at h
    prompts := by
      have hp := hs.prompts
      simp only [State.acceptInput_history, State.acceptInput_awaiting, requestCount_append, inputCount_append]
      simpa [ha, Event.isInput] using hp
    events := hs.events_append hv }

/-- Reset puts every element back; the store and the parameters keep what the invariant says of them (R131). -/
theorem Inv.applyReset (hs : Inv s) : Inv s.applyReset where
  width := hs.width
  store := hs.store
  zReset := hs.zReset
  regs := fun r => by
    rw [State.readReg_applyReset]
    exact zero_inS _
  z := hs.zReset
  ip := Nat.zero_le _
  fault := fun h => absurd rfl h
  halt := fun _ => rfl
  reset := fun _ => ⟨rfl, rfl⟩
  fetchFault := fun h => by simp at h
  opcodeFault := fun h => by simp at h
  prompt := fun h => by simp at h
  prompts := rfl
  events := fun e he => by simp at he

/-- A fetch outside the program is no prompt's, so the fault is latched with none pending (R125). -/
theorem Inv.raise_fetchOutOfBounds (hs : Inv s) (hr : Ready s) (hw : s.fetch = none) :
    Inv (s.raise .fetchOutOfBounds) := by
  obtain ⟨hreset, hrun, -⟩ := hr
  have ha : s.awaiting = false := by
    by_contra hpending
    obtain ⟨r, w, hsome, -⟩ := hs.prompt (by simpa using hpending)
    simp [hw] at hsome
  exact { hs with
    fault := fun _ => ⟨hrun, ha⟩
    reset := fun h => by simp [hreset] at h
    fetchFault := fun _ => hw
    opcodeFault := fun h => by simp at h }

theorem Inv.raise_unknownOpcode (hs : Inv s) (ho : Ordinary s) {w : Word} (hw : s.fetch = some w)
    (hop : 0xA ≤ (decode w).opcode.toNat) : Inv (s.raise .unknownOpcode) := by
  obtain ⟨⟨hreset, hrun, -⟩, ha⟩ := ho
  exact { hs with
    fault := fun _ => ⟨hrun, ha⟩
    reset := fun h => by simp [hreset] at h
    fetchFault := fun h => by simp at h
    opcodeFault := fun _ => ⟨w, hw, hop⟩ }

/-! ### The two ways an enabled step goes on -/

/-- The completion of a pending prompt: it waits, or it stores the answer and goes on (R113). -/
theorem completeInput_keeps_inv (hs : Inv s) (hr : Ready s) (ha : s.awaiting = true) {w : Word}
    (hw : s.fetch = some w) {r : RegIdx} (h : completeInput r s = .next t) : Inv t := by
  obtain ⟨-, -, hf⟩ := hr
  obtain ⟨-, rfl⟩ | ⟨v, -, -, hv, rfl⟩ := completeInput_cases h
  · exact hs
  · exact (hs.acceptInput ha r hv).setIp hf rfl (hs.nextIp_le hw)

/-- Writing a member of `S_W` and going on at `ip + 1`: the shared end of LOADI, ADD, SUB and ADDI (R102). -/
theorem Inv.writeReg_advance (hs : Inv s) (ho : Ordinary s) {w : Word} (hw : s.fetch = some w) (r : RegIdx) {v : Int}
    (hv : InS s.width v) : Inv ((s.writeReg r v).setIp s.nextIp) := by
  obtain ⟨⟨-, -, hf⟩, ha⟩ := ho
  exact (hs.writeReg r hv).setIp hf ha (hs.nextIp_le hw)

/-- Every immediate lies in `S_W` (R15, R52). -/
theorem Inv.immOperand_inS (hs : Inv s) (v : Imm) : InS s.width (immOperand v) :=
  inS_of_byte hs.width v.isLt

/-- Every instruction of an ordinary step keeps the invariant, each by the rules of the operations it is made of. -/
theorem exec_keeps_inv {i : Instr} (hs : Inv s) (ho : Ordinary s) (hi : FetchesInstr s i)
    (h : exec i s = .next t) : Inv t := by
  have ⟨w, hw, _⟩ := hi
  have ⟨⟨_, _, hf⟩, ha⟩ := ho
  have hnext := hs.nextIp_le hw
  have hwrap := wrap_inS hs.one_le_width
  cases i with
  | halt =>
    cases (exec_halt s).symm.trans h
    exact (hs.stop hf ha).setIp hf ha hnext
  | loadi r v =>
    cases (exec_loadi r v s).symm.trans h
    exact hs.writeReg_advance ho hw r (hs.immOperand_inS v)
  | add a b c =>
    cases (exec_add a b c s).symm.trans h
    exact hs.writeReg_advance ho hw a (hwrap _)
  | sub a b c =>
    cases (exec_sub a b c s).symm.trans h
    exact hs.writeReg_advance ho hw a (hwrap _)
  | addi r v =>
    cases (exec_addi r v s).symm.trans h
    exact hs.writeReg_advance ho hw r (hwrap _)
  | regdump r =>
    cases (exec_regdump r s).symm.trans h
    have he : eventOk s.width (.output (sourceNumber r) (s.readReg r)) :=
      ⟨Nat.le_add_left 1 _, r.isLt, hs.regs r⟩
    exact (hs.record_output he).setIp hf ha hnext
  | cmp a b =>
    cases (exec_cmp a b s).symm.trans h
    exact (hs.writeZ (sub_inS hs.one_le_width (hs.regs a) (hs.regs b))).setIp hf ha hnext
  | jle d =>
    cases (exec_jle d s).symm.trans h
    refine hs.setIp hf ha ?_
    split
    · exact jumpTarget_le d
    · exact hnext
  | jmp d =>
    cases (exec_jmp d s).symm.trans h
    exact hs.setIp hf ha (jumpTarget_le d)
  | prompti r =>
    cases (exec_prompti_request r ha).symm.trans h
    exact hs.requestInput ho hi

end

/-- Settles O41, by the cases of a step: the release of reset, a fault at fetch, the completion of a pending
prompt, a fault at dispatch, or the decoded instruction. -/
theorem stepKeepsInvariant : Obligations.StepKeepsInvariant := by
  intro s t hs h
  obtain ⟨-, rfl⟩ | ⟨hreset, hrun, hf, hstep⟩ := step_cases h
  · exact hs.applyReset
  have hr : Ready s := ⟨hreset, hrun, hf⟩
  obtain ⟨hw, rfl⟩ | ⟨w, hw, ⟨ha, hc⟩ | ⟨ha, ⟨e, he, rfl⟩ | ⟨i, hi, hexec⟩⟩⟩ := hstep
  · exact hs.raise_fetchOutOfBounds hr hw
  · exact completeInput_keeps_inv hs hr ha hw hc
  · exact hs.raise_unknownOpcode ⟨hr, ha⟩ hw (opcode_ge_of_decodeInstr_error he)
  · exact exec_keeps_inv hs ⟨hr, ha⟩ ⟨w, hw, hi⟩ hexec

end Sys2Proof.Machine
end

section
/-!
PROOFS. What one step outside reset can do to the state, said once: eleven effects, each an update of the state. What
a single element of the state can undergo (R16, R22, R24, R25, R28, R43) is read off them.
-/

namespace Sys2Proof.Machine

/-- The instruction stores a result of its own in `x[r]`: LOADI, ADDI, ADD and SUB with destination `r` (R103 to
R106). -/
def StoresTo (i : Instr) (r : RegIdx) : Prop :=
  (∃ v, i = .loadi r v) ∨ (∃ v, i = .addi r v) ∨ (∃ b c, i = .add r b c) ∨ ∃ b c, i = .sub r b c

/-- What a step from `s` outside reset can have done: wait, raise a fault, complete a pending prompt, or have the
effect of the instruction at `ip` (R91 to R96, R113). -/
inductive StepEffect (s : State) : State → Prop
  | wait (ha : s.awaiting = true) (hin : s.inputs = []) : StepEffect s s
  | answer {w : Word} {v : Int} {vs : List Int} (hw : s.fetch = some w) (ha : s.awaiting = true)
      (hin : s.inputs = v :: vs) (hv : InS s.width v) :
      StepEffect s ((s.acceptInput (decode w).reg1 v).setIp s.nextIp)
  | fetchFault (hw : s.fetch = none) : StepEffect s (s.raise .fetchOutOfBounds)
  | opcodeFault {w : Word} {e : DecodeReject} (hw : s.fetch = some w) (he : decodeInstr w = .error e) :
      StepEffect s (s.raise .unknownOpcode)
  | store {i : Instr} {r : RegIdx} (v : Int) (hi : FetchesInstr s i) (hr : StoresTo i r) :
      StepEffect s ((s.writeReg r v).setIp s.nextIp)
  | cmp {a b : RegIdx} (hi : FetchesInstr s (.cmp a b)) :
      StepEffect s ((s.writeZ (s.readReg a - s.readReg b)).setIp s.nextIp)
  | jle {d : JumpAddr} (hi : FetchesInstr s (.jle d)) :
      StepEffect s (s.setIp (if s.z ≤ 0 then jumpTarget d else s.nextIp))
  | jmp {d : JumpAddr} (hi : FetchesInstr s (.jmp d)) : StepEffect s (s.setIp (jumpTarget d))
  | halt (hi : FetchesInstr s .halt) : StepEffect s (s.stop.setIp s.nextIp)
  | regdump {r : RegIdx} (hi : FetchesInstr s (.regdump r)) :
      StepEffect s ((s.record (.output (sourceNumber r) (s.readReg r))).setIp s.nextIp)
  | request {r : RegIdx} (hi : FetchesInstr s (.prompti r)) (ha : s.awaiting = false) :
      StepEffect s s.requestInput

section
variable {s t : State}

theorem completeInput_effect {w : Word} (hw : s.fetch = some w) (ha : s.awaiting = true)
    (h : completeInput (decode w).reg1 s = .next t) : StepEffect s t := by
  obtain ⟨hin, rfl⟩ | ⟨v, vs, hin, hv, rfl⟩ := completeInput_cases h
  · exact .wait ha hin
  · exact .answer hw ha hin hv

theorem exec_effect {i : Instr} (hi : FetchesInstr s i) (ha : s.awaiting = false) (h : exec i s = .next t) :
    StepEffect s t := by
  cases i with
  | halt =>
    cases (exec_halt s).symm.trans h
    exact .halt hi
  | loadi r v =>
    cases (exec_loadi r v s).symm.trans h
    exact .store _ hi (.inl ⟨v, rfl⟩)
  | addi r v =>
    cases (exec_addi r v s).symm.trans h
    exact .store _ hi (.inr (.inl ⟨v, rfl⟩))
  | add a b c =>
    cases (exec_add a b c s).symm.trans h
    exact .store _ hi (.inr (.inr (.inl ⟨b, c, rfl⟩)))
  | sub a b c =>
    cases (exec_sub a b c s).symm.trans h
    exact .store _ hi (.inr (.inr (.inr ⟨b, c, rfl⟩)))
  | cmp a b =>
    cases (exec_cmp a b s).symm.trans h
    exact .cmp hi
  | jle d =>
    cases (exec_jle d s).symm.trans h
    exact .jle hi
  | jmp d =>
    cases (exec_jmp d s).symm.trans h
    exact .jmp hi
  | regdump r =>
    cases (exec_regdump r s).symm.trans h
    exact .regdump hi
  | prompti r =>
    cases (exec_prompti_request r ha).symm.trans h
    exact .request hi ha

/-- A step outside reset starts in an enabled state (R91) and has one of the eleven effects. -/
theorem step_effect (h : step s = .next t) (hreset : s.resetInput = false) : Ready s ∧ StepEffect s t := by
  obtain ⟨hheld, -⟩ | ⟨-, hrun, hf, hstep⟩ := step_cases h
  · simp [hreset] at hheld
  refine ⟨⟨hreset, hrun, hf⟩, ?_⟩
  obtain ⟨hw, rfl⟩ | ⟨w, hw, ⟨ha, hc⟩ | ⟨ha, ⟨e, he, rfl⟩ | ⟨i, hi, hexec⟩⟩⟩ := hstep
  · exact .fetchFault hw
  · exact completeInput_effect hw ha hc
  · exact .opcodeFault hw he
  · exact exec_effect ⟨w, hw, hi⟩ ha hexec

/-! ### The comparison register -/

theorem StepEffect.z_changed (h : StepEffect s t) (hz : t.z ≠ s.z) :
    ∃ a b, FetchesInstr s (.cmp a b) ∧ t.z = s.readReg a - s.readReg b := by
  cases h with
  | cmp hi => exact ⟨_, _, hi, rfl⟩
  | _ => exact absurd rfl hz

theorem exec_cmp_writeZ (a b : RegIdx) (s : State) (z : Int) :
    exec (.cmp a b) (s.writeZ z) = exec (.cmp a b) s := rfl

theorem completeInput_writeZ {r : RegIdx} (h : completeInput r s = .next t) (z : Int) :
    completeInput r (s.writeZ z) = .next (t.writeZ z) := by
  obtain ⟨hin, rfl⟩ | ⟨v, vs, hin, hv, rfl⟩ := completeInput_cases h
  · exact completeInput_wait r hin
  · exact completeInput_accept r hin hv

/-- An instruction that neither reads nor writes `Z` runs alike from any value of `Z`, and hands it on (R22). -/
theorem exec_writeZ {i : Instr} (hjle : i.mnemonic ≠ .jle) (hcmp : i.mnemonic ≠ .cmp) (h : exec i s = .next t)
    (z : Int) : exec i (s.writeZ z) = .next (t.writeZ z) := by
  cases i with
  | jle d => exact absurd rfl hjle
  | cmp a b => exact absurd rfl hcmp
  | prompti r =>
    cases ha : s.awaiting with
    | false =>
      cases (exec_prompti_request r ha).symm.trans h
      exact exec_prompti_request r ha
    | true =>
      rw [exec_prompti_pending r ha] at h
      rw [exec_prompti_pending r (by simpa using ha)]
      exact completeInput_writeZ h z
  | halt => cases (exec_halt s).symm.trans h; rfl
  | loadi r v => cases (exec_loadi r v s).symm.trans h; rfl
  | add a b c => cases (exec_add a b c s).symm.trans h; rfl
  | sub a b c => cases (exec_sub a b c s).symm.trans h; rfl
  | addi r v => cases (exec_addi r v s).symm.trans h; rfl
  | regdump r => cases (exec_regdump r s).symm.trans h; rfl
  | jmp d => cases (exec_jmp d s).symm.trans h; rfl

theorem sameRest_refl (s : State) : SameRest s s :=
  ⟨⟨rfl, rfl, rfl⟩, ⟨rfl, rfl, rfl⟩, ⟨rfl, fun _ => rfl⟩, rfl⟩

/-! ### The registers and the control elements -/

theorem StepEffect.reg_changed (h : StepEffect s t) {r : RegIdx} (hr : t.readReg r ≠ s.readReg r) :
    (∃ w, s.fetch = some w ∧ s.awaiting = true ∧ (decode w).reg1 = r) ∨
      ∃ i, FetchesInstr s i ∧ StoresTo i r := by
  have hdest {q : RegIdx} {v : Int} (hne : (s.writeReg q v).readReg r ≠ s.readReg r) : q = r := by
    by_contra hq
    exact hne (State.readReg_writeReg_other s v (Ne.symm hq))
  cases h with
  | answer hw ha => exact .inl ⟨_, hw, ha, hdest hr⟩
  | store v hi hstores => exact .inr ⟨_, hi, hdest hr ▸ hstores⟩
  | _ => exact absurd rfl hr

theorem StepEffect.running_changed (h : StepEffect s t) (hr : t.running ≠ s.running) :
    t.running = false ∧ FetchesInstr s .halt := by
  cases h with
  | halt hi => exact ⟨rfl, hi⟩
  | _ => exact absurd rfl hr

theorem StepEffect.fault_changed (h : StepEffect s t) (hf : t.fault ≠ s.fault) : t = s.raise t.fault := by
  cases h with
  | fetchFault => rfl
  | opcodeFault => rfl
  | _ => exact absurd rfl hf

theorem StepEffect.mem_params_eq (h : StepEffect s t) : t.mem = s.mem ∧ t.params = s.params := by
  cases h <;> exact ⟨rfl, rfl⟩

/-- No step changes the program store or the parameters, the release of reset included (R34, R43, R134). -/
theorem step_mem_params_eq (h : step s = .next t) : t.mem = s.mem ∧ t.params = s.params := by
  cases hreset : s.resetInput with
  | false => exact (step_effect h hreset).2.mem_params_eq
  | true =>
    cases (step_reset hreset).symm.trans h
    exact ⟨rfl, rfl⟩

/-- The destination of a PROMPTI is its word's `reg1` field (R49). -/
theorem reg1_of_decodeInstr_prompti {w : Word} {r : RegIdx} (h : decodeInstr w = .ok (.prompti r)) :
    (decode w).reg1 = r := by
  cases hop : Mnemonic.ofCode (decode w).opcode with
  | none => simp [decodeInstr, Decoded.instr, hop] at h
  | some m =>
    cases m with
    | prompti => simpa [decodeInstr, Decoded.instr, hop] using h
    | _ => simp [decodeInstr, Decoded.instr, hop] at h

end

/-- Settles O35: the effect of a step on `Z`, JLE's own equation, and the run of every other instruction from
another `Z`. -/
theorem zIsCmpToJleOnly : Obligations.ZIsCmpToJleOnly := by
  refine ⟨fun s t h hreset hz => (step_effect h hreset).2.z_changed hz, ?_, ?_⟩
  · intro s t d h
    cases (exec_jle d s).symm.trans h
    exact ⟨rfl, fun _ => rfl⟩
  · intro s t i z hjle h
    by_cases hcmp : i.mnemonic = .cmp
    · obtain ⟨a, b, rfl⟩ : ∃ a b, i = .cmp a b := by
        cases i with
        | cmp a b => exact ⟨a, b, rfl⟩
        | _ => cases hcmp
      exact ⟨t, h, rfl, fun _ => rfl, sameRest_refl t, fun _ => rfl, fun hne => absurd rfl hne⟩
    · exact ⟨t.writeZ z, exec_writeZ hjle hcmp h z, rfl, fun _ => rfl, sameRest_refl t,
        fun heq => absurd heq hcmp, fun _ => rfl⟩

/-- Settles O36: of the effects of a step only HALT's reaches `running`, and reset sets it. -/
theorem onlyHaltClearsRunning : Obligations.OnlyHaltClearsRunning := by
  intro s t h
  refine ⟨fun hreset => ?_, fun hreset => (step_effect h hreset).2.running_changed⟩
  cases (step_reset hreset).symm.trans h
  rfl

/-- Settles O37: the effects that reach a register name it, and the word of a pending prompt is its PROMPTI. -/
theorem registerWriters : Obligations.RegisterWriters := by
  intro s t r hprompt h hreset hr
  obtain ⟨w, hw, ha, rfl⟩ | ⟨i, hi, hstores⟩ := (step_effect h hreset).2.reg_changed hr
  · obtain ⟨q, w', hw', hq⟩ := hprompt ha
    obtain rfl : w = w' := Option.some.inj (hw.symm.trans hw')
    rw [reg1_of_decodeInstr_prompti hq]
    exact .inl ⟨ha, w, hw, hq⟩
  · obtain ⟨v, rfl⟩ | ⟨v, rfl⟩ | ⟨b, c, rfl⟩ | ⟨b, c, rfl⟩ := hstores
    · exact .inr (.inl ⟨v, hi⟩)
    · exact .inr (.inr (.inl ⟨v, hi⟩))
    · exact .inr (.inr (.inr (.inl ⟨b, c, hi⟩)))
    · exact .inr (.inr (.inr (.inr ⟨b, c, hi⟩)))

end Sys2Proof.Machine
end

section
/-!
PROOFS. Runs of any number of steps (R28, R43, R113, R126, R129), and the end of the program (R20, R111, R120).
-/

namespace Sys2Proof.Machine

section
variable {s t : State}

/-! ### The first step of a run -/

theorem run_succ_of_next (k : Nat) (h : step s = .next t) :
    Host.Core.run Sys2Proof.core (k + 1) s = Host.Core.run Sys2Proof.core k t := by
  have hstep : Sys2Proof.core.step s = .next t := h
  simp only [Host.Core.run, hstep]

theorem run_succ_of_fault (k : Nat) {cause : Fault} (h : step s = .fault cause) :
    Host.Core.run Sys2Proof.core (k + 1) s = .fault cause := by
  have hstep : Sys2Proof.core.step s = .fault cause := h
  simp only [Host.Core.run, hstep]

/-- A run that answers a next state keeps whatever every step keeps. -/
theorem run_induction {P : State → Prop} (hstep : ∀ u v, P u → step u = .next v → P v) :
    ∀ (k : Nat) (u : State), P u → Host.Core.run Sys2Proof.core k u = .next t → P t
  | 0, u, hu, h => by cases h; exact hu
  | k + 1, u, hu, h => by
    cases hs : step u with
    | next v =>
      rw [run_succ_of_next k hs] at h
      exact run_induction hstep k v (hstep u v hu hs) h
    | fault cause => rw [run_succ_of_fault k hs] at h; cases h
    | refused reason =>
      have hcore : Sys2Proof.core.step u = .refused reason := hs
      simp [Host.Core.run, hcore] at h

/-- With a fault latched outside reset the machine has no step (R91, R126). -/
theorem step_of_latched (hf : s.fault ≠ .noFault) (hreset : s.resetInput = false) :
    ∃ cause, step s = .fault cause := by
  cases hlatch : s.fault with
  | noFault => exact absurd hlatch hf
  | fetchOutOfBounds => exact ⟨_, step_fetchFault hreset hlatch⟩
  | unknownOpcode => exact ⟨_, step_opcodeFault hreset hlatch⟩

/-! ### Fetch -/

theorem fetch_eq_none (h : s.mem.size ≤ s.ip.toNat) : s.fetch = none :=
  (Memory.read_eq_none_iff s.mem s.ip.toNat).2 h

theorem exists_fetch_eq_some (h : s.ip.toNat < s.mem.size) : ∃ w, s.fetch = some w :=
  Option.ne_none_iff_exists'.1 fun hnone =>
    absurd ((Memory.read_eq_none_iff s.mem s.ip.toNat).1 hnone) (Nat.not_le.2 h)

/-- A step outside the program raises FetchOutOfBounds (R92). -/
theorem step_outside (hr : Ready s) (h : s.mem.size ≤ s.ip.toNat) :
    step s = .next (s.raise .fetchOutOfBounds) := by
  obtain ⟨hreset, hrun, hf⟩ := hr
  rw [step_ready hreset hrun hf, engineStep_none (fetch_eq_none h)]

/-- An ordinary step executes the instruction at `ip` (R96). -/
theorem step_eq_exec (ho : Ordinary s) {i : Instr} (hi : FetchesInstr s i) : step s = exec i s := by
  obtain ⟨⟨hreset, hrun, hf⟩, ha⟩ := ho
  obtain ⟨w, hw, hdec⟩ := hi
  rw [step_ready hreset hrun hf, engineStep_exec hw ha hdec]

/-- A step with a prompt pending at a PROMPTI executes that PROMPTI (R113). -/
theorem step_eq_exec_prompti (hr : Ready s) (ha : s.awaiting = true) {r : RegIdx}
    (hi : FetchesInstr s (.prompti r)) : step s = exec (.prompti r) s := by
  obtain ⟨hreset, hrun, hf⟩ := hr
  obtain ⟨w, hw, hdec⟩ := hi
  rw [step_ready hreset hrun hf, engineStep_pending hw ha, reg1_of_decodeInstr_prompti hdec,
    exec_prompti_pending r ha]

/-- A pending prompt without an answer idles, whatever word `ip` points to (R129; log entry 7). -/
theorem step_waiting (hr : Ready s) (ha : s.awaiting = true) (hin : s.inputs = [])
    (hip : s.ip.toNat < s.mem.size) : step s = .next s := by
  obtain ⟨hreset, hrun, hf⟩ := hr
  obtain ⟨w, hw⟩ := exists_fetch_eq_some hip
  rw [step_ready hreset hrun hf, engineStep_pending hw ha, completeInput_wait _ hin]

/-! ### Off the end of the program -/

/-- The instruction went on to `ip + 1` and left the control elements and the store as they were. -/
def WentOn (s t : State) : Prop := t.ip = s.nextIp ∧ SameControl s t ∧ t.mem = s.mem

/-- From index `N - 1` the sequential successor is `N`; 13 bits hold it (R19, R20). -/
theorem nextIp_toNat_of_last (hlast : s.ip.toNat + 1 = s.mem.size) (hsize : s.mem.size ≤ 4096) :
    s.nextIp.toNat = s.mem.size := by
  have hmod : s.nextIp.toNat = (s.ip.toNat + 1) % 8192 := by simp [State.nextIp, BitVec.toNat_add]
  omega

/-- After going on from the last index the next step faults at `ip = N` (R120). -/
theorem WentOn.step_faults (h : WentOn s t) (hr : Ready s) (hlast : s.ip.toNat + 1 = s.mem.size)
    (hsize : s.mem.size ≤ 4096) :
    ∃ u, step t = .next u ∧ u = t.raise .fetchOutOfBounds ∧ u.ip.toNat = s.mem.size := by
  obtain ⟨hip, ⟨hrun, hf, hreset⟩, hmem⟩ := h
  obtain ⟨sreset, srun, sf⟩ := hr
  have hend : t.ip.toNat = s.mem.size := hip ▸ nextIp_toNat_of_last hlast hsize
  have ht : Ready t := ⟨hreset.trans sreset, hrun.trans srun, hf.trans sf⟩
  exact ⟨_, step_outside ht (by rw [hmem, hend]), rfl, hend⟩

/-- The sequential instructions and a JLE that is not taken go on to `ip + 1` (R20, R109). -/
theorem exec_wentOn {i : Instr}
    (hseq : i.mnemonic ∈ [.loadi, .add, .sub, .addi, .cmp, .regdump] ∨ ∃ d, i = .jle d ∧ 0 < s.z) :
    ∃ t, exec i s = .next t ∧ WentOn s t := by
  obtain hmem | ⟨d, rfl, hz⟩ := hseq
  · cases i with
    | loadi r v => exact ⟨_, exec_loadi r v s, rfl, ⟨rfl, rfl, rfl⟩, rfl⟩
    | add a b c => exact ⟨_, exec_add a b c s, rfl, ⟨rfl, rfl, rfl⟩, rfl⟩
    | sub a b c => exact ⟨_, exec_sub a b c s, rfl, ⟨rfl, rfl, rfl⟩, rfl⟩
    | addi r v => exact ⟨_, exec_addi r v s, rfl, ⟨rfl, rfl, rfl⟩, rfl⟩
    | cmp a b => exact ⟨_, exec_cmp a b s, rfl, ⟨rfl, rfl, rfl⟩, rfl⟩
    | regdump r => exact ⟨_, exec_regdump r s, rfl, ⟨rfl, rfl, rfl⟩, rfl⟩
    | _ => simp [Instr.mnemonic] at hmem
  · exact ⟨_, exec_jle d s, if_neg (Int.not_le.2 hz), ⟨rfl, rfl, rfl⟩, rfl⟩

/-- A PROMPTI that completes goes on to `ip + 1` (R113). -/
theorem exec_prompti_wentOn (r : RegIdx) {v : Int} {vs : List Int} (ha : s.awaiting = true)
    (hin : s.inputs = v :: vs) (hv : InS s.width v) : ∃ t, exec (.prompti r) s = .next t ∧ WentOn s t :=
  ⟨_, (exec_prompti_pending r ha).trans (completeInput_accept r hin hv), rfl, ⟨rfl, rfl, rfl⟩, rfl⟩

end

/-- Settles O38: only the two faults reach the latch, a latched fault stops the first step of every run, and
reset clears it. -/
theorem latchIsSticky : Obligations.LatchIsSticky := by
  refine ⟨fun s t h hreset hf => ?_, fun k s hf hreset => ?_, fun s t hreset h => ?_⟩
  · obtain ⟨⟨-, -, hnone⟩, heff⟩ := step_effect h hreset
    exact ⟨hnone, heff.fault_changed hf⟩
  · obtain ⟨cause, hstop⟩ := step_of_latched hf hreset
    exact ⟨cause, run_succ_of_fault k hstop⟩
  · cases (step_reset hreset).symm.trans h
    rfl

/-- Settles O39, by induction on the run: no step changes the store or the parameters. -/
theorem programIsImmutable : Obligations.ProgramIsImmutable := by
  intro k s t h
  obtain ⟨hmem, hparams⟩ : t.mem = s.mem ∧ t.params = s.params :=
    run_induction (P := fun u => u.mem = s.mem ∧ u.params = s.params)
      (fun u v hu hstep =>
        have hv := step_mem_params_eq hstep
        ⟨hv.1.trans hu.1, hv.2.trans hu.2⟩)
      k s ⟨rfl, rfl⟩ h
  exact ⟨hmem, hparams, fun i => by rw [hmem]⟩

/-- Settles O54: going on from index `N - 1` leaves `ip = N`, where a running engine faults and a halted one
reports its halt. -/
theorem runningOffTheEnd : Obligations.RunningOffTheEnd := by
  refine ⟨?_, ?_, ?_⟩
  · intro s i ho hi hlast hsize hseq
    obtain ⟨t, hexec, hon⟩ := exec_wentOn hseq
    obtain ⟨u, hu⟩ := hon.step_faults ho.1 hlast hsize
    exact ⟨t, u, (step_eq_exec ho hi).trans hexec, hexec, hu⟩
  · intro s r v vs hr ha hi hin hv hlast hsize
    obtain ⟨t, hexec, hon⟩ := exec_prompti_wentOn r ha hin hv
    obtain ⟨u, hu⟩ := hon.step_faults hr hlast hsize
    exact ⟨t, u, (step_eq_exec_prompti hr ha hi).trans hexec, hexec, hu⟩
  · intro s ho hi hlast hsize
    have ⟨⟨hreset, _, hf⟩, _⟩ := ho
    exact ⟨_, (step_eq_exec ho hi).trans (exec_halt s), nextIp_toNat_of_last hlast hsize, hf,
      step_halted hreset hf rfl⟩

/-- Settles O56, by induction on the number of steps: each is the idle one. -/
theorem promptWaitsForEver : Obligations.PromptWaitsForEver := by
  intro k s hr ha hin hip
  induction k with
  | zero => rfl
  | succ k ih => rw [run_succ_of_next k (step_waiting hr ha hin hip), ih]

end Sys2Proof.Machine
end

section
/-!
PROOFS. The start of a run and its end (R19, R31, R38, R99 to R101, R134).
-/

namespace Sys2Proof.Machine

section
variable {s t : State}

/-! ### Reset and loading -/

/-- The parameters, the empty store and `Z` are fixed values (log entry 2); the clauses that speak of a fault, a pending
prompt or an event have nothing to say yet (R31). -/
theorem inv_reset : Inv State.reset where
  width := by decide
  store := State.reset_store_wf
  zReset := by decide
  regs := fun r => (State.readReg_applyReset State.reset r).symm ▸ zero_inS _
  z := by decide
  ip := Nat.zero_le _
  fault := fun h => absurd rfl h
  halt := fun _ => rfl
  reset := fun _ => ⟨rfl, rfl⟩
  fetchFault := nofun
  opcodeFault := nofun
  prompt := nofun
  prompts := rfl
  events := nofun

/-- The host's answers are no part of the invariant. -/
theorem Inv.setInputs (hs : Inv s) (vs : List Int) : Inv { s with inputs := vs } := { hs with }

/-- A load keeps the invariant where no clause speaks of the word at `ip`: without a fault and without a pending
prompt (R134). -/
theorem Inv.loadProgram (hs : Inv s) (hf : s.fault = .noFault) (ha : s.awaiting = false) {ws : List Word}
    (h : s.loadProgram ws = .ok t) : Inv t := by
  obtain ⟨rfl, hwf⟩ := loadProgram_cases h
  exact { hs with
    store := hwf
    fetchFault := fun hlatch => by simp [hf] at hlatch
    opcodeFault := fun hlatch => by simp [hf] at hlatch
    prompt := fun hpending => by simp [ha] at hpending }

/-- Word `i` of a loaded program reads as the program's word `i`, and there is no other (R33, R134). -/
theorem Memory.read_ofWords (ws : List Word) (i : Nat) : (Memory.ofWords ws).read i = ws[i]? := by
  by_cases hi : i < ws.length
  · have hlookup := lookupCell_cellsFrom 0 i ws hi
    rw [Nat.zero_add] at hlookup
    simp [Memory.read, Memory.ofWords, hi, hlookup]
  · simp [Memory.read, Memory.ofWords, hi]

theorem boot_inv {ws : List Word} {vs : List Int} (h : boot ws vs = .ok s) : Inv s :=
  (inv_reset.setInputs vs).loadProgram rfl rfl h

/-! ### The end of a run -/

theorem completeInput_ne_fault (r : RegIdx) (s : State) (cause : Fault) : completeInput r s ≠ .fault cause := by
  cases hin : s.inputs with
  | nil => simp [completeInput_wait r hin]
  | cons v vs =>
    by_cases hv : InS s.width v
    · simp [completeInput_accept r hin hv]
    · simp [completeInput_refuse r hin hv]

/-- No executor stops the machine with a fault (R118). -/
theorem exec_ne_fault (i : Instr) (s : State) (cause : Fault) : exec i s ≠ .fault cause := by
  cases i with
  | prompti r =>
    cases ha : s.awaiting with
    | false => simp [exec_prompti_request r ha]
    | true => simpa [exec_prompti_pending r ha] using completeInput_ne_fault r s cause
  | jle d => simp [exec_jle]
  | _ => nofun

theorem engineStep_ne_fault (s : State) (cause : Fault) : engineStep s ≠ .fault cause := by
  cases hw : s.fetch with
  | none => simp [engineStep_none hw]
  | some w =>
    cases ha : s.awaiting with
    | true => simpa [engineStep_pending hw ha] using completeInput_ne_fault _ s cause
    | false =>
      cases hi : decodeInstr w with
      | error e => simp [engineStep_unknown hw ha hi]
      | ok i => simpa [engineStep_exec hw ha hi] using exec_ne_fault i s cause

theorem ended_eq_false_iff : s.ended = false ↔ s.running = true ∧ s.fault = .noFault := by
  simp [State.ended, State.faulted]

/-- The step stops only where the run is over (R91, R99). -/
theorem ended_of_step_fault {cause : Fault} (h : step s = .fault cause) : s.ended = true := by
  by_contra hend
  obtain ⟨hrun, hf⟩ := ended_eq_false_iff.1 (by simpa using hend)
  cases hreset : s.resetInput with
  | true => rw [step_reset hreset] at h; cases h
  | false =>
    rw [step_ready hreset hrun hf] at h
    exact engineStep_ne_fault s cause h

/-- A run that is reported as ended has ended. -/
theorem ended_of_runFrom : ∀ (k : Nat) (s : State), runFrom k s = .ended t → t.ended = true
  | 0, s, h => by
    unfold runFrom at h
    split at h
    · cases h; exact ‹_›
    · cases h
  | k + 1, s, h => by
    unfold runFrom at h
    split at h
    · cases h; exact ‹_›
    · split at h
      · exact ended_of_runFrom k _ h
      · cases h; exact ended_of_step_fault ‹_›
      · cases h

theorem exitCode_of_ended (h : s.ended = true) : s.exitCode = some s.fault.code := if_pos h

/-- How a state of the invariant in which the run is over ended, with its exit code (R99, R101). -/
theorem Inv.end_cases (hs : Inv s) (hend : s.ended = true) :
    (s.running = false ∧ s.fault = .noFault ∧ s.exitCode = some 0) ∨
      (s.fault = .fetchOutOfBounds ∧ s.fetch = none ∧ s.exitCode = some 1) ∨
      (s.fault = .unknownOpcode ∧ (∃ w, s.fetch = some w ∧ 0xA ≤ (decode w).opcode.toNat) ∧
        s.exitCode = some 2) := by
  rw [exitCode_of_ended hend]
  cases hf : s.fault with
  | noFault => exact .inl ⟨by simpa [State.ended, State.faulted, hf] using hend, rfl, rfl⟩
  | fetchOutOfBounds => exact .inr (.inl ⟨rfl, hs.fetchFault hf, rfl⟩)
  | unknownOpcode => exact .inr (.inr ⟨rfl, hs.opcodeFault hf, rfl⟩)

end

/-- Settles O42. -/
theorem resetHasInvariant : Obligations.ResetHasInvariant := inv_reset

/-- Settles O45: the registers by the reset's own rule, the rest by its definition. -/
theorem resetValues : Obligations.ResetValues :=
  ⟨State.readReg_applyReset State.reset, rfl, rfl, rfl, rfl, rfl, rfl⟩

/-- Settles O60: a start from reset meets the invariant, every step keeps it, and in the state a run ends in it says
which end that is. -/
theorem programRuns : Obligations.ProgramRuns := by
  refine ⟨?_, ?_, ?_⟩
  · intro k ws vs hlong
    simp only [runProgram, boot, loadProgram_tooLong hlong]
  · intro ws vs hfits
    have hboot : boot ws vs = .ok { State.reset with inputs := vs, mem := Memory.ofWords ws } :=
      loadProgram_fits hfits _
    exact ⟨_, hboot, ⟨⟨rfl, rfl, rfl⟩, rfl⟩, boot_inv hboot, rfl, rfl, Memory.read_ofWords ws⟩
  · intro k ws vs t h
    rw [h]
    unfold runProgram at h
    split at h
    next s hboot =>
      have ht : Inv t := runFrom_induction stepKeepsInvariant k s (boot_inv hboot) h
      exact ⟨ht, ht.ip, ht.end_cases (ended_of_runFrom k s h)⟩
    next => cases h

end Sys2Proof.Machine
end

section
/-!
PROOFS. The program store and the program file (R32, R33, R35, R72, R92): a store write, a fetch inside and outside
the program, and a program written to a file and read back.
-/

namespace Sys2Proof.Machine

/-! ### The program file -/

@[simp] theorem length_bytesOfWord (o : Config.ByteOrder) (w : Word) : (bytesOfWord o w).length = 2 := by
  cases o <;> rfl

/-- The high byte before the low byte is the word (R35). -/
theorem highByte_append_lowByte (w : Word) : w.extractLsb' 8 8 ++ w.extractLsb' 0 8 = w :=
  (BitVec.extractLsb'_append_extractLsb'_eq_extractLsb' rfl).trans BitVec.extractLsb'_eq_self

theorem fileOfProgram_cons (o : Config.ByteOrder) (w : Word) (ws : List Word) :
    fileOfProgram o (w :: ws) = bytesOfWord o w ++ fileOfProgram o ws := rfl

/-- In either order the file bytes of a word stand for that word (R35). -/
theorem exists_bytesOfWord_eq (o : Config.ByteOrder) (w : Word) :
    ∃ a b, bytesOfWord o w = [a, b] ∧ wordOfBytes o a b = w := by
  cases o with
  | little => exact ⟨_, _, rfl, highByte_append_lowByte w⟩
  | big => exact ⟨_, _, rfl, highByte_append_lowByte w⟩

/-- Reading takes the two bytes of a word off the front of a file and goes on with the rest (R72). -/
theorem programOfFile_bytesOfWord_append (o : Config.ByteOrder) (w : Word) (rest : List (BitVec 8)) :
    programOfFile o (bytesOfWord o w ++ rest) = (programOfFile o rest).map (w :: ·) := by
  obtain ⟨a, b, hbytes, hword⟩ := exists_bytesOfWord_eq o w
  rw [hbytes, List.cons_append, List.cons_append, List.nil_append, programOfFile, hword]

theorem length_fileOfProgram (o : Config.ByteOrder) (ws : List Word) :
    (fileOfProgram o ws).length = 2 * ws.length := by
  induction ws with
  | nil => rfl
  | cons w ws ih =>
    rw [fileOfProgram_cons, List.length_append, length_bytesOfWord, ih, List.length_cons]
    omega

theorem programOfFile_fileOfProgram (o : Config.ByteOrder) (ws : List Word) :
    programOfFile o (fileOfProgram o ws) = some ws := by
  induction ws with
  | nil => rfl
  | cons w ws ih => rw [fileOfProgram_cons, programOfFile_bytesOfWord_append, ih, Option.map_some]

/-- Settles O15, word by word along the program. -/
theorem programFileRoundTrip : Obligations.ProgramFileRoundTrip :=
  fun o ws => ⟨length_fileOfProgram o ws, programOfFile_fileOfProgram o ws⟩

/-! ### The program store -/

/-- Settles O30: a fetch is a read of the store at `ip`, and the state after reset is ready over an empty store. -/
theorem fetchOutOfBoundsRaised : Obligations.FetchOutOfBoundsRaised := by
  refine ⟨fun s => step_outside, ?_, Memory.read_ofWords, ?_⟩
  · intro s hip
    obtain ⟨w, hw⟩ := exists_fetch_eq_some hip
    exact ⟨w, hw, hw⟩
  · have hready : Ready State.reset := ⟨rfl, rfl, rfl⟩
    have hempty : State.reset.mem.size ≤ State.reset.ip.toNat := Nat.zero_le _
    exact step_outside hready hempty

/-- Settles O50, by the rules of a store write. -/
theorem storeReadAfterWrite : Obligations.StoreReadAfterWrite := by
  intro m i w hwf hi
  exact ⟨Memory.write_wf hwf i w, Memory.read_write_self hwf hi w, fun _ => Memory.read_write_other m w⟩

end Sys2Proof.Machine
end

section
/-!
PROOFS. The instruction of a word (R54, R55, R56): which words have one, and which bits of the word it is read from.
-/

namespace Sys2Proof

/-! ### The instruction read as one mnemonic -/

/-- The instruction a record stands for when its opcode is that of `op`: the fields the format of `op` reads (R49). -/
def Decoded.readAs (d : Decoded) : Mnemonic → Instr
  | .halt => .halt
  | .loadi => .loadi d.reg1 d.immediate
  | .add => .add d.reg1 d.reg2 d.reg3
  | .regdump => .regdump d.reg1
  | .prompti => .prompti d.reg1
  | .cmp => .cmp d.reg1 d.reg2
  | .jle => .jle d.jumpAddress
  | .jmp => .jmp d.jumpAddress
  | .addi => .addi d.reg1 d.immediate
  | .sub => .sub d.reg1 d.reg2 d.reg3

theorem decodeInstr_of_ofCode {w : Word} {op : Mnemonic} (h : Mnemonic.ofCode (decode w).opcode = some op) :
    decodeInstr w = .ok ((decode w).readAs op) := by
  unfold decodeInstr Decoded.instr
  rw [h]
  cases op <;> rfl

theorem decodeInstr_of_ofCode_none {w : Word} (h : Mnemonic.ofCode (decode w).opcode = none) :
    decodeInstr w = .error (.unknownOpcode w) := by
  unfold decodeInstr Decoded.instr
  rw [h]
  rfl

/-! ### The opcode of a word -/

theorem toNat_decode_opcode (w : Word) : (decode w).opcode.toNat = w.toNat / 4096 := by
  have hw : w.toNat < 65536 := w.isLt
  have hslice : (decode w).opcode.toNat = w.toNat / 4096 % 16 := by
    simp [decode, BitVec.extractLsb'_toNat, Nat.shiftRight_eq_div_pow]
  omega

theorem exists_decodeInstr_iff (w : Word) :
    (∃ i, decodeInstr w = .ok i) ↔ (decode w).opcode.toNat < 0xA := by
  rw [← Nat.not_le, ← ofCode_eq_none_iff]
  cases hop : Mnemonic.ofCode (decode w).opcode with
  | none => simp [decodeInstr_of_ofCode_none hop]
  | some op => simp [decodeInstr_of_ofCode hop]

/-- Settles O6: the opcode is the word's number divided by `0x1000`. -/
theorem legalOpcodes : Obligations.LegalOpcodes := by
  intro w
  rw [exists_decodeInstr_iff, toNat_decode_opcode]
  omega

/-! ### The unwritten nibbles -/

/-- A field outside a mask is the same in two words that agree outside the mask. -/
theorem extractLsb'_eq_of_or_eq {w v f : Word} (h : w ||| f = v ||| f) (low len : Nat)
    (hf : f.extractLsb' low len = 0) : w.extractLsb' low len = v.extractLsb' low len := by
  have hor := congrArg (BitVec.extractLsb' low len) h
  simpa [BitVec.extractLsb'_or, hf] using hor

/-- No format leaves a bit of the opcode unwritten (R49, R50). -/
theorem extractLsb'_opcode_filler (φ : Format) : φ.filler.extractLsb' 12 4 = 0 := by
  cases φ <;> decide

/-- A format leaves unwritten only nibbles its instructions do not read (R49, R56). -/
theorem readAs_eq_of_or_filler_eq {w v : Word} {op : Mnemonic}
    (h : w ||| op.format.filler = v ||| op.format.filler) : (decode w).readAs op = (decode v).readAs op := by
  have hfield := extractLsb'_eq_of_or_eq h
  cases op with
  | halt => rfl
  | regdump => exact congrArg Instr.regdump (hfield 8 4 rfl)
  | prompti => exact congrArg Instr.prompti (hfield 8 4 rfl)
  | cmp => exact congrArg₂ Instr.cmp (hfield 8 4 rfl) (hfield 4 4 rfl)
  | loadi => exact congrArg₂ Instr.loadi (hfield 8 4 rfl) (hfield 0 8 rfl)
  | addi => exact congrArg₂ Instr.addi (hfield 8 4 rfl) (hfield 0 8 rfl)
  | jle => exact congrArg Instr.jle (hfield 0 12 rfl)
  | jmp => exact congrArg Instr.jmp (hfield 0 12 rfl)
  | add => simp only [Decoded.readAs, decode, hfield 8 4 rfl, hfield 4 4 rfl, hfield 0 4 rfl]
  | sub => simp only [Decoded.readAs, decode, hfield 8 4 rfl, hfield 4 4 rfl, hfield 0 4 rfl]

/-- Settles O7: the opcode and every field the format reads lie outside the unwritten nibbles. -/
theorem unusedNibblesIgnored : Obligations.UnusedNibblesIgnored := by
  intro w v op hw h
  have hopcode : (decode w).opcode = (decode v).opcode :=
    extractLsb'_eq_of_or_eq h 12 4 (extractLsb'_opcode_filler op.format)
  have hv : Mnemonic.ofCode (decode v).opcode = some op := hopcode ▸ hw
  rw [decodeInstr_of_ofCode hw, decodeInstr_of_ofCode hv, readAs_eq_of_or_filler_eq h]

/-- Settles O8: six words, decoded. -/
theorem sampleWordsDecode : Obligations.SampleWordsDecode := ⟨rfl, rfl, rfl, rfl, rfl, rfl⟩

end Sys2Proof
end

section
/-!
PROOFS. The assembler's phases (R59 to R70): the contract of `compile`, what the validator leaves, a run of letters
and digits at the lexer, and a label at the parser.
-/

namespace Sys2Proof.Machine

/-! ### The contract of `compile` -/

/-- A result that has a program or at least one error, and not both (R70). -/
def CompileResult.ProgramOrErrors (r : CompileResult) : Prop := r.program.isSome = true ↔ r.errors = []

theorem failed_programOrErrors {α : Type} (f : α → Diagnostic) (e : α) (es : List α) :
    (CompileResult.failed ((e :: es).map f)).ProgramOrErrors := by
  simp [CompileResult.ProgramOrErrors, CompileResult.failed]

theorem compileEncode_programOrErrors (instrs : List SourceInstr) (labels : List LabelDef) :
    (compileEncode instrs labels).ProgramOrErrors := by
  unfold compileEncode
  split
  · exact iff_of_true rfl rfl
  · exact failed_programOrErrors _ _ _

theorem compileParsed_programOrErrors (p : ParseState) : (compileParsed p).ProgramOrErrors := by
  unfold compileParsed
  split
  · exact compileEncode_programOrErrors _ _
  · exact failed_programOrErrors _ _ _

theorem compileTokens_programOrErrors (tokens : List Token) : (compileTokens tokens).ProgramOrErrors := by
  unfold compileTokens
  split
  · exact compileParsed_programOrErrors _
  · exact failed_programOrErrors _ _ _

/-- Settles O10, phase by phase from the encoder back: a phase with errors fails with at least one. -/
theorem programIffNoErrors : Obligations.ProgramIffNoErrors := by
  intro source
  change (compile source).ProgramOrErrors
  unfold compile
  split
  · exact compileTokens_programOrErrors _
  · exact failed_programOrErrors _ _ _

/-! ### What the validator leaves -/

theorem duplicateErrors_eq_nil_iff {seen : List (List Char)} {labels : List LabelDef} :
    duplicateErrors seen labels = [] ↔
      (labels.map LabelDef.name).Nodup ∧ ∀ d ∈ labels, d.name ∉ seen := by
  induction labels generalizing seen with
  | nil => simp [duplicateErrors]
  | cons d rest ih =>
    by_cases hseen : d.name ∈ seen
    · simp [duplicateErrors, hseen]
    · have hfresh : (∀ e ∈ rest, e.name ∉ d.name :: seen) ↔
          d.name ∉ rest.map LabelDef.name ∧ ∀ e ∈ rest, e.name ∉ seen := by
        simp [forall_and]
      rw [duplicateErrors, if_neg hseen, ih, hfresh, List.map_cons, List.nodup_cons, List.forall_mem_cons]
      tauto

/-- A label table names what it gives an index (R68). -/
theorem mem_names_of_labelIndex {labels : List LabelDef} {name : List Char} {k : Nat}
    (h : labelIndex labels name = some k) : name ∈ labels.map LabelDef.name := by
  obtain ⟨d, hfind, -⟩ := Option.map_eq_some_iff.1 h
  exact List.mem_map.2 ⟨d, List.mem_of_find?_eq_some hfind, by simpa using List.find?_some hfind⟩

theorem labelIndex_lt_of_referenceErrors {labels : List LabelDef} {t : Token} (h : referenceErrors labels t = []) :
    ∃ k, labelIndex labels t.literal = some k ∧ k < 4096 := by
  unfold referenceErrors at h
  split at h
  next => cases h
  next k hk =>
    split at h
    next hlt => exact ⟨k, hk, hlt⟩
    next => cases h

/-- An argument the validator passes, by its kind (R69). -/
theorem arg_of_argErrors {labels : List LabelDef} {t : Token} (h : argErrors labels t = []) :
    (∀ n, t.content = .register n → 0 ≤ n ∧ n < 16) ∧
      (∀ v, t.content = .immediate v → 0 ≤ v ∧ v < 256) ∧
      (t.content = .opcodeWord → ∃ k, labelIndex labels t.literal = some k ∧ k < 4096) := by
  unfold argErrors at h
  refine ⟨fun n hc => ?_, fun v hc => ?_, fun hc => ?_⟩
  · simpa [hc] using h
  · simpa [hc] using h
  · exact labelIndex_lt_of_referenceErrors (by simpa [hc] using h)

/-- Settles O12: every list of errors `validate` joins is empty, and a name in a table without duplicates is in it
once. -/
theorem validatedProgramsAreInRange : Obligations.ValidatedProgramsAreInRange := by
  intro instrs labels h
  obtain ⟨hdup, hargs⟩ := List.append_eq_nil_iff.1 h
  have hnodup := (duplicateErrors_eq_nil_iff.1 hdup).1
  refine ⟨hnodup, fun i hi t ht => ?_⟩
  have hinstr := List.flatMap_eq_nil_iff.1 hargs i hi
  obtain ⟨hreg, himm, href⟩ := arg_of_argErrors (List.flatMap_eq_nil_iff.1 hinstr t ht)
  refine ⟨hreg, himm, fun hc => ?_⟩
  obtain ⟨k, hk, hlt⟩ := href hc
  exact ⟨k, hk, hlt, List.count_eq_one_of_mem hnodup (mem_names_of_labelIndex hk)⟩

/-! ### A run of letters and digits -/

@[simp] theorem lexFrom_nil (fuel line : Nat) : lexFrom fuel line [] = .empty := by
  cases fuel <;> rfl

/-- A source that is one run of letters and digits is one token (R64). -/
theorem lexFrom_run (fuel line : Nat) {c : Char} {cs : List Char} (hrun : (c :: cs).all isWordChar = true) :
    lexFrom (fuel + 1) line (c :: cs) = { tokens := [wordToken line (c :: cs)], errors := [] } := by
  obtain ⟨hc, hcs⟩ : isWordChar c = true ∧ ∀ d ∈ cs, isWordChar d = true := by simpa using hrun
  have hne {d : Char} (hd : isWordChar d = false) : c ≠ d := fun heq => by simp [← heq, hc] at hd
  have htake : cs.takeWhile isWordChar = cs := List.takeWhile_eq_self_iff.2 hcs
  have hdrop : cs.dropWhile isWordChar = [] := List.dropWhile_eq_nil_iff.2 hcs
  simp [lexFrom, hne (d := ' ') (by decide), hne (d := '\n') (by decide), hne (d := ';') (by decide),
    hne (d := '#') (by decide), hne (d := '@') (by decide), hc, htake, hdrop, LexResult.addToken, LexResult.empty]

/-- The token of `reg` and one or more digits (R64). -/
theorem wordToken_register (line : Nat) {ds : List Char} (hne : ds ≠ []) (hds : ds.all isDigitChar = true) :
    wordToken line ('r' :: 'e' :: 'g' :: ds) =
      { content := .register ((digitsValue ds : Int) - 1), line := line, literal := 'r' :: 'e' :: 'g' :: ds } := by
  have hdigits : registerDigits ('r' :: 'e' :: 'g' :: ds) = some ds := if_pos ⟨hne, hds⟩
  rw [wordToken, hdigits]

/-- Settles O13: the source is one run, and the run matches the register pattern. -/
theorem registerTokens : Obligations.RegisterTokens := by
  intro ds hne hds
  have hreg : isWordChar 'r' = true ∧ isWordChar 'e' = true ∧ isWordChar 'g' = true := by decide
  have hword : ∀ c ∈ ds, isWordChar c = true := fun c hc => by
    simp [isWordChar, List.all_eq_true.1 hds c hc]
  have hrun : ('r' :: 'e' :: 'g' :: ds).all isWordChar = true := by simpa [hreg] using hword
  rw [tokenize, List.length_cons, lexFrom_run _ 1 hrun, wordToken_register 1 hne hds]

/-! ### A label is no argument -/

/-- The kinds of the arguments an open statement still lacks. -/
def ParseMode.expected : ParseMode → List TokenKind
  | .collecting _ _ kinds => kinds
  | .ready => []
  | .recovering => []

/-- No open statement waits for a label as an argument. -/
def ParseState.ExpectsNoLabel (p : ParseState) : Prop := TokenKind.jumpLabel ∉ p.mode.expected

/-- No shape contains a JUMP-LABEL position (R66). -/
theorem jumpLabel_not_mem_argKinds (op : Mnemonic) : TokenKind.jumpLabel ∉ argKinds op := by
  cases op <;> decide

theorem ParseState.ExpectsNoLabel.not_mem {p : ParseState} (hp : p.ExpectsNoLabel) {op : Mnemonic} {args : List Token}
    {kinds : List TokenKind} (hmode : p.mode = .collecting op args kinds) : TokenKind.jumpLabel ∉ kinds := by
  rw [ParseState.ExpectsNoLabel, hmode] at hp
  exact hp

theorem reject_expectsNoLabel (p : ParseState) (e : ParseError) : (p.reject e).ExpectsNoLabel := List.not_mem_nil

theorem openStatement_expectsNoLabel (p : ParseState) (op : Mnemonic) : (p.openStatement op).ExpectsNoLabel := by
  unfold ParseState.openStatement
  split
  · exact List.not_mem_nil
  · exact jumpLabel_not_mem_argKinds op

theorem statementToken_expectsNoLabel {p : ParseState} (hp : p.ExpectsNoLabel) (t : Token) :
    (p.statementToken t).ExpectsNoLabel := by
  unfold ParseState.statementToken
  split
  · split
    · exact openStatement_expectsNoLabel p _
    · exact List.not_mem_nil
  · exact List.not_mem_nil
  · split
    · exact hp
    · exact List.not_mem_nil

theorem token_expectsNoLabel {p : ParseState} (hp : p.ExpectsNoLabel) (t : Token) : (p.token t).ExpectsNoLabel := by
  unfold ParseState.token
  split
  next op args k ks hmode =>
    split
    · split
      · exact List.not_mem_nil
      · exact List.not_mem_of_not_mem_cons (hp.not_mem hmode)
    · exact statementToken_expectsNoLabel (reject_expectsNoLabel p _) t
  next => exact statementToken_expectsNoLabel hp t

theorem foldl_token_expectsNoLabel (ts : List Token) {p : ParseState} (hp : p.ExpectsNoLabel) :
    (ts.foldl ParseState.token p).ExpectsNoLabel := by
  induction ts generalizing p with
  | nil => exact hp
  | cons t ts ih => exact ih (token_expectsNoLabel hp t)

theorem statementToken_jumpLabel (p : ParseState) {t : Token} {name : List Char} (ht : t.content = .jumpLabel name) :
    p.statementToken t = p.bindLabel name := by
  simp only [ParseState.statementToken, ht]

theorem token_jumpLabel_ready {p : ParseState} (hp : p.mode = .ready) {t : Token} {name : List Char}
    (ht : t.content = .jumpLabel name) : p.token t = p.bindLabel name := by
  rw [ParseState.token, hp, statementToken_jumpLabel p ht]

/-- A label binds where it stands; if it cuts a statement short, that is an error besides (R67, R68). -/
theorem token_jumpLabel {p : ParseState} (hp : p.ExpectsNoLabel) {t : Token} {name : List Char}
    (ht : t.content = .jumpLabel name) :
    p.token t = p.bindLabel name ∨ ∃ e, p.token t = (p.reject e).bindLabel name := by
  have hkind : t.kind = .jumpLabel := by rw [Token.kind, ht]; rfl
  unfold ParseState.token
  split
  next op args k ks hmode =>
    have hk : t.kind ≠ k := hkind ▸ List.ne_of_not_mem_cons (hp.not_mem hmode)
    rw [if_neg hk, statementToken_jumpLabel _ ht]
    exact .inr ⟨_, rfl⟩
  next => exact .inl (statementToken_jumpLabel p ht)

/-! ### The label table is only written

Entries put before the label table stay there, and the parser goes on as without them. -/

/-- The parser's state with `ls` before its label table. -/
def ParseState.withLabelsBefore (ls : List LabelDef) (p : ParseState) : ParseState :=
  { p with labels := ls ++ p.labels }

section
variable (ls : List LabelDef) (p : ParseState)

@[simp] theorem ParseState.withLabelsBefore_mode : (p.withLabelsBefore ls).mode = p.mode := rfl

theorem bindLabel_withLabelsBefore (name : List Char) :
    (p.withLabelsBefore ls).bindLabel name = (p.bindLabel name).withLabelsBefore ls := by
  simp [ParseState.bindLabel, ParseState.withLabelsBefore]

theorem openStatement_withLabelsBefore (op : Mnemonic) :
    (p.withLabelsBefore ls).openStatement op = (p.openStatement op).withLabelsBefore ls := by
  unfold ParseState.openStatement
  split <;> rfl

theorem statementToken_withLabelsBefore (t : Token) :
    (p.withLabelsBefore ls).statementToken t = (p.statementToken t).withLabelsBefore ls := by
  unfold ParseState.statementToken
  split
  · split
    · exact openStatement_withLabelsBefore ls p _
    · rfl
  · exact bindLabel_withLabelsBefore ls p _
  · rw [ParseState.withLabelsBefore_mode]
    split <;> rfl

theorem token_withLabelsBefore (t : Token) :
    (p.withLabelsBefore ls).token t = (p.token t).withLabelsBefore ls := by
  unfold ParseState.token
  rw [ParseState.withLabelsBefore_mode]
  split
  · split
    · split <;> rfl
    · exact statementToken_withLabelsBefore ls (p.reject _) t
  · exact statementToken_withLabelsBefore ls p t

theorem foldl_token_withLabelsBefore (ts : List Token) :
    ts.foldl ParseState.token (p.withLabelsBefore ls) = (ts.foldl ParseState.token p).withLabelsBefore ls := by
  induction ts generalizing p with
  | nil => rfl
  | cons t ts ih => rw [List.foldl_cons, token_withLabelsBefore, ih, List.foldl_cons]

theorem finish_withLabelsBefore : (p.withLabelsBefore ls).finish = p.finish.withLabelsBefore ls := by
  unfold ParseState.finish
  rw [ParseState.withLabelsBefore_mode]
  split <;> rfl

/-- The parse from a state on is the parse from the same state without labels, with those labels put back. -/
theorem foldl_token_finish_eq (ts : List Token) :
    (ts.foldl ParseState.token p).finish =
      (ts.foldl ParseState.token { p with labels := [] }).finish.withLabelsBefore p.labels := by
  rw [← finish_withLabelsBefore, ← foldl_token_withLabelsBefore]
  simp [ParseState.withLabelsBefore]

end

/-- Settles O14: no statement takes a label for an argument, and the parser never reads its label table. -/
theorem labelTakesNoSlot : Obligations.LabelTakesNoSlot := by
  intro before t name ht m
  have hm : m.ExpectsNoLabel := foldl_token_expectsNoLabel before List.not_mem_nil
  obtain ⟨hinstrs, hlabels, hmode⟩ : (m.token t).instrs = m.instrs ∧
      (m.token t).labels = m.labels ++ [{ name := name, index := m.instrs.length }] ∧ (m.token t).mode = .ready := by
    obtain h | ⟨e, h⟩ := token_jumpLabel hm ht
    · rw [h]; exact ⟨rfl, rfl, rfl⟩
    · rw [h]; exact ⟨rfl, rfl, rfl⟩
  refine ⟨hinstrs, hlabels, hmode, ?_⟩
  intro hready after p q
  let r := (after.foldl ParseState.token { m with labels := [] }).finish
  have hp : p = r.withLabelsBefore m.labels :=
    (congrArg ParseState.finish List.foldl_append).trans (foldl_token_finish_eq m after)
  have hstart : { m.bindLabel name with labels := [] } = { m with labels := [] } := by
    simp [ParseState.bindLabel, hready]
  have hq : q = r.withLabelsBefore (m.labels ++ [{ name := name, index := m.instrs.length }]) := by
    have hcut : q = (after.foldl ParseState.token (m.token t)).finish := congrArg ParseState.finish List.foldl_append
    rw [hcut, token_jumpLabel_ready hready ht, foldl_token_finish_eq, hstart]
    rfl
  rw [hp, hq]
  exact ⟨rfl, rfl, r.labels, rfl, (List.append_cons _ _ _).symm⟩

end Sys2Proof.Machine
end

section
/-!
PROOFS. The encoder and the decoder (R75, R85 to R89): the fields of a word as numbers, the word of a record, and what
one block makes of the other's result.
-/

namespace Sys2Proof

/-! ### The decoder's fields as numbers -/

theorem toNat_decode_reg1 (w : Word) : (decode w).reg1.toNat = w.toNat / 256 % 16 := by
  simp [decode, BitVec.extractLsb'_toNat, Nat.shiftRight_eq_div_pow]

theorem toNat_decode_reg2 (w : Word) : (decode w).reg2.toNat = w.toNat / 16 % 16 := by
  simp [decode, BitVec.extractLsb'_toNat, Nat.shiftRight_eq_div_pow]

theorem toNat_decode_reg3 (w : Word) : (decode w).reg3.toNat = w.toNat % 16 := by
  simp [decode, BitVec.extractLsb'_toNat]

theorem toNat_decode_immediate (w : Word) : (decode w).immediate.toNat = w.toNat % 256 := by
  simp [decode, BitVec.extractLsb'_toNat]

theorem toNat_decode_jumpAddress (w : Word) : (decode w).jumpAddress.toNat = w.toNat % 4096 := by
  simp [decode, BitVec.extractLsb'_toNat]

/-- Settles O5, one field at a time. -/
theorem decodeExtractsFields : Obligations.DecodeExtractsFields := fun w =>
  ⟨toNat_decode_opcode w, toNat_decode_reg1 w, toNat_decode_reg2 w, toNat_decode_reg3 w, toNat_decode_immediate w,
    toNat_decode_jumpAddress w, rfl⟩

/-! ### The write primitive -/

/-- Settles O4: a bit is below the span, in it or above it. -/
theorem putReplacesItsSpan : Obligations.PutReplacesItsSpan := by
  intro p n v _ _ hroom
  refine ⟨rfl, fun hi lo hhi hlo k hk => ?_⟩
  have hlow : spanLow p.cursor n = lo := by unfold spanLow; omega
  simp only [Packing.put, hlow, BitVec.getLsbD_or, BitVec.getLsbD_and, BitVec.getLsbD_not,
    BitVec.getLsbD_shiftLeft, BitVec.getLsbD_setWidth, BitVec.getLsbD_allOnes]
  split
  next hin =>
    have hspan : ¬ k < lo ∧ k - lo < 4 * n ∧ k - lo < 16 := by omega
    simp [hk, hspan]
  next hout =>
    by_cases hbelow : k < lo
    · simp [hk, hbelow]
    · have habove : 4 * n ≤ k - lo := by omega
      simp [hk, habove]

/-! ### The word of a record, by the format of its opcode -/

section
variable {i : EncodeInput}

theorem pack_of_format_n (h : i.op.format = .n) : pack i = i.op.code ++ 0xFFF#12 := by
  rw [pack, h]
  exact pack_n _

theorem pack_of_format_r (h : i.op.format = .r) : pack i = i.op.code ++ i.r1 ++ 0xFF#8 := by
  rw [pack, h]
  exact pack_r _ _

theorem pack_of_format_rr (h : i.op.format = .rr) : pack i = i.op.code ++ i.r1 ++ i.r2 ++ 0xF#4 := by
  rw [pack, h]
  exact pack_rr _ _ _

theorem pack_of_format_rrr (h : i.op.format = .rrr) : pack i = i.op.code ++ i.r1 ++ i.r2 ++ i.r3 := by
  rw [pack, h]
  exact pack_rrr _ _ _ _

theorem pack_of_format_ri (h : i.op.format = .ri) : pack i = i.op.code ++ i.r1 ++ i.imm := by
  rw [pack, h]
  exact pack_ri _ _ _

theorem pack_of_format_j (h : i.op.format = .j) : pack i = i.op.code ++ i.addr := by
  rw [pack, h]
  exact pack_j _ _

end

/-- Settles O3: the number of the concatenation that the opcode's format makes. -/
theorem encoderClosedForm : Obligations.EncoderClosedForm := by
  rintro ⟨op, r1, r2, r3, imm, addr⟩
  cases op with
  | halt => rw [pack_of_format_n rfl, toNat_j]; simp only [Mnemonic.code, BitVec.toNat_ofNat]
  | loadi => rw [pack_of_format_ri rfl, toNat_ri]; simp only [Mnemonic.code, BitVec.toNat_ofNat]; omega
  | add => rw [pack_of_format_rrr rfl, toNat_rrr]; simp only [Mnemonic.code, BitVec.toNat_ofNat]; omega
  | regdump => rw [pack_of_format_r rfl, toNat_ri]; simp only [Mnemonic.code, BitVec.toNat_ofNat]; omega
  | prompti => rw [pack_of_format_r rfl, toNat_ri]; simp only [Mnemonic.code, BitVec.toNat_ofNat]; omega
  | cmp => rw [pack_of_format_rr rfl, toNat_rrr]; simp only [Mnemonic.code, BitVec.toNat_ofNat]; omega
  | jle => rw [pack_of_format_j rfl, toNat_j]; simp only [Mnemonic.code, BitVec.toNat_ofNat]
  | jmp => rw [pack_of_format_j rfl, toNat_j]; simp only [Mnemonic.code, BitVec.toNat_ofNat]
  | addi => rw [pack_of_format_ri rfl, toNat_ri]; simp only [Mnemonic.code, BitVec.toNat_ofNat]; omega
  | sub => rw [pack_of_format_rrr rfl, toNat_rrr]; simp only [Mnemonic.code, BitVec.toNat_ofNat]; omega

/-! ### Decoding a packed word -/

theorem reg1_decode_rrr (c a b d : Nibble) : (decode (c ++ a ++ b ++ d)).reg1 = a :=
  BitVec.eq_of_toNat_eq (by rw [toNat_decode_reg1, toNat_rrr]; omega)

theorem reg2_decode_rrr (c a b d : Nibble) : (decode (c ++ a ++ b ++ d)).reg2 = b :=
  BitVec.eq_of_toNat_eq (by rw [toNat_decode_reg2, toNat_rrr]; omega)

theorem reg3_decode_rrr (c a b d : Nibble) : (decode (c ++ a ++ b ++ d)).reg3 = d :=
  BitVec.eq_of_toNat_eq (by rw [toNat_decode_reg3, toNat_rrr]; omega)

theorem reg1_decode_ri (c a : Nibble) (v : Imm) : (decode (c ++ a ++ v)).reg1 = a :=
  BitVec.eq_of_toNat_eq (by rw [toNat_decode_reg1, toNat_ri]; omega)

theorem immediate_decode_ri (c a : Nibble) (v : Imm) : (decode (c ++ a ++ v)).immediate = v :=
  BitVec.eq_of_toNat_eq (by rw [toNat_decode_immediate, toNat_ri]; omega)

theorem jumpAddress_decode_j (c : Nibble) (t : JumpAddr) : (decode (c ++ t)).jumpAddress = t :=
  BitVec.eq_of_toNat_eq (by rw [toNat_decode_jumpAddress, toNat_j]; omega)

theorem ofCode_opcode_encode (i : Instr) : Mnemonic.ofCode (decode (encode i)).opcode = some i.mnemonic := by
  have hop : i.toInput.op = i.mnemonic := by cases i <;> rfl
  rw [encode, Laws.pack_opcode, hop, ofCode_code]

/-- Every field an instruction's format reads is decoded as the operand packed there (R88). -/
theorem readAs_encode (i : Instr) : (decode (encode i)).readAs i.mnemonic = i := by
  cases i with
  | halt => rfl
  | regdump r =>
    rw [encode, pack_of_format_r rfl]
    exact congrArg Instr.regdump (reg1_decode_ri _ r _)
  | prompti r =>
    rw [encode, pack_of_format_r rfl]
    exact congrArg Instr.prompti (reg1_decode_ri _ r _)
  | cmp a b =>
    rw [encode, pack_of_format_rr rfl]
    exact congrArg₂ Instr.cmp (reg1_decode_rrr _ a b _) (reg2_decode_rrr _ a b _)
  | add a b c =>
    rw [encode, pack_of_format_rrr rfl]
    exact congr (congrArg₂ Instr.add (reg1_decode_rrr _ a b c) (reg2_decode_rrr _ a b c)) (reg3_decode_rrr _ a b c)
  | sub a b c =>
    rw [encode, pack_of_format_rrr rfl]
    exact congr (congrArg₂ Instr.sub (reg1_decode_rrr _ a b c) (reg2_decode_rrr _ a b c)) (reg3_decode_rrr _ a b c)
  | loadi r v =>
    rw [encode, pack_of_format_ri rfl]
    exact congrArg₂ Instr.loadi (reg1_decode_ri _ r v) (immediate_decode_ri _ r v)
  | addi r v =>
    rw [encode, pack_of_format_ri rfl]
    exact congrArg₂ Instr.addi (reg1_decode_ri _ r v) (immediate_decode_ri _ r v)
  | jle t =>
    rw [encode, pack_of_format_j rfl]
    exact congrArg Instr.jle (jumpAddress_decode_j _ t)
  | jmp t =>
    rw [encode, pack_of_format_j rfl]
    exact congrArg Instr.jmp (jumpAddress_decode_j _ t)

/-- Settles O1: the decoder finds the mnemonic, and then each operand. -/
theorem decodeOfEncode : Obligations.DecodeOfEncode := by
  intro i _
  rw [decodeInstr_of_ofCode (ofCode_opcode_encode i), readAs_encode]

/-! ### Packing a decoded word -/

/-- The high part of a word before ones is the word with its low part set. -/
theorem extractLsb'_append_allOnes {m n : Nat} (x : BitVec (m + n)) :
    x.extractLsb' n m ++ BitVec.allOnes n = x ||| (BitVec.allOnes n).setWidth (m + n) := by
  ext k hk
  by_cases hlow : k < n
  · simp [BitVec.getElem_append, hlow]
  · have hsum : n + (k - n) = k := by omega
    simp [BitVec.getElem_append, hlow, hsum, BitVec.getLsbD_eq_getElem hk]

theorem or_eq_left_iff_and_eq_right {n : Nat} {x f : BitVec n} : x ||| f = x ↔ x &&& f = f := by
  simp only [BitVec.eq_of_getElem_eq_iff, BitVec.getElem_or, BitVec.getElem_and, Bool.or_eq_left_iff_imp,
    Bool.and_eq_right_iff_imp]

theorem opcode_append_reg1 (w : Word) : (decode w).opcode ++ (decode w).reg1 = w.extractLsb' 8 8 :=
  BitVec.extractLsb'_append_extractLsb'_eq_extractLsb' rfl

theorem opcode_append_reg1_append_reg2 (w : Word) :
    (decode w).opcode ++ (decode w).reg1 ++ (decode w).reg2 = w.extractLsb' 4 12 :=
  (congrArg (· ++ (decode w).reg2) (opcode_append_reg1 w)).trans
    (BitVec.extractLsb'_append_extractLsb'_eq_extractLsb' rfl)

theorem code_of_ofCode : ∀ {c : Nibble} {op : Mnemonic}, Mnemonic.ofCode c = some op → op.code = c := by decide

/-- The record of R89 for an opcode that is `op`'s. -/
def Decoded.inputAs (d : Decoded) (op : Mnemonic) : EncodeInput :=
  { op := op, r1 := d.reg1, r2 := d.reg2, r3 := d.reg3, imm := d.immediate, addr := d.jumpAddress }

theorem toInput_of_ofCode {d : Decoded} {op : Mnemonic} (h : Mnemonic.ofCode d.opcode = some op) :
    d.toInput = some (d.inputAs op) := by
  rw [Decoded.toInput, h]
  rfl

/-- The fields a format reads are the bits it writes, and the others are packed as ones (R89). -/
theorem pack_inputAs {w : Word} {op : Mnemonic} (h : Mnemonic.ofCode (decode w).opcode = some op) :
    pack ((decode w).inputAs op) = w ||| op.format.filler := by
  have hop : ((decode w).inputAs op).op.code = (decode w).opcode := code_of_ofCode h
  cases hφ : op.format with
  | n =>
    rw [pack_of_format_n hφ, hop]
    exact extractLsb'_append_allOnes (m := 4) (n := 12) w
  | r =>
    rw [pack_of_format_r hφ, hop]
    exact (congrArg (· ++ 0xFF#8) (opcode_append_reg1 w)).trans (extractLsb'_append_allOnes (m := 8) (n := 8) w)
  | rr =>
    rw [pack_of_format_rr hφ, hop]
    exact (congrArg (· ++ 0xF#4) (opcode_append_reg1_append_reg2 w)).trans
      (extractLsb'_append_allOnes (m := 12) (n := 4) w)
  | rrr =>
    rw [pack_of_format_rrr hφ, hop, Format.filler, BitVec.or_zero]
    exact (congrArg (· ++ (decode w).reg3) (opcode_append_reg1_append_reg2 w)).trans
      (BitVec.extractLsb'_append_extractLsb' (w := 12) (len := 4))
  | ri =>
    rw [pack_of_format_ri hφ, hop, Format.filler, BitVec.or_zero]
    exact (congrArg (· ++ (decode w).immediate) (opcode_append_reg1 w)).trans
      (BitVec.extractLsb'_append_extractLsb' (w := 8) (len := 8))
  | j =>
    rw [pack_of_format_j hφ, hop, Format.filler, BitVec.or_zero]
    exact BitVec.extractLsb'_append_extractLsb' (w := 4) (len := 12)

theorem canonical_iff_or_filler_eq {w : Word} {op : Mnemonic} (h : Mnemonic.ofCode (decode w).opcode = some op) :
    canonical w = true ↔ w ||| op.format.filler = w := by
  rw [canonical, h, or_eq_left_iff_and_eq_right]
  exact beq_iff_eq

/-- Settles O2: the packed word is the word with its filler set, which changes nothing in a canonical word alone. -/
theorem encodeOfDecode : Obligations.EncodeOfDecode := by
  intro w op h
  have hpack := pack_inputAs h
  exact ⟨_, toInput_of_ofCode h, rfl, hpack, by rw [hpack, canonical_iff_or_filler_eq h]⟩

end Sys2Proof
end

section
/-!
PROOFS. The encoder phase (R83, R84): one word for each instruction of the parser's list, or an error and no program.
-/

namespace Sys2Proof.Machine

/-! ### The words of a program -/

section
variable {labels : List LabelDef} {instrs : List SourceInstr} {ws : List Word}

/-- Without an error, `emit` delivers the word of each record, in order (R83). -/
theorem map_emitOne_of_emit (h : emit labels instrs = (ws, [])) : instrs.map (emitOne labels) = ws.map .ok := by
  induction instrs generalizing ws with
  | nil =>
    cases h
    rfl
  | cons i rest ih =>
    unfold emit at h
    split at h
    next w ws' es hi hrest =>
      cases h
      rw [List.map_cons, List.map_cons, hi, ih hrest]
    next => cases h

theorem emit_of_compileEncode (h : (compileEncode instrs labels).program = some ws) :
    emit labels instrs = (ws, []) := by
  unfold compileEncode at h
  split at h
  next hemit =>
    cases h
    exact hemit
  next => cases h

/-- A program that `compile` delivers is what the encoder made of the parser's list (R70). -/
theorem emit_of_compile {source : List Char} (h : (compile source).program = some ws) :
    emit (parse (tokenize source).tokens).labels (parse (tokenize source).tokens).instrs = (ws, []) := by
  unfold compile compileTokens compileParsed at h
  split at h
  · split at h
    · split at h
      · exact emit_of_compileEncode h
      · cases h
    · cases h
  · cases h

end

/-- Settles O11: the encoder's results on the parser's list are the program's words, entry for entry. -/
theorem oneWordPerInstruction : Obligations.OneWordPerInstruction := by
  intro source ws h p
  have hwords : p.instrs.map (emitOne p.labels) = ws.map .ok := map_emitOne_of_emit (emit_of_compile h)
  refine ⟨by simpa using (congrArg List.length hwords).symm, fun k i hi => ?_⟩
  have hk : (ws.map Except.ok)[k]? = some (emitOne p.labels i) := by
    rw [← hwords, List.getElem?_map, hi, Option.map_some]
  rw [List.getElem?_map] at hk
  obtain ⟨w, hw, hok⟩ := Option.map_eq_some_iff.1 hk
  exact ⟨w, hok.symm, hw⟩

/-! ### The encoder's refusals -/

theorem checkAddr_of_le {k : Nat} (hk : 4096 ≤ k) : checkAddr k = .error (.addressOutOfRange k) := by
  rw [checkAddr, if_neg (by omega)]

/-- A jump is refused for its address, whatever the reason (R73). -/
theorem check_of_checkAddr_error {op : Mnemonic} (hop : op.format = .j) {k : Int} {e : IllFormed}
    (h : checkAddr k = .error e) : RawInstr.check { op := op, args := [.addr k] } = .error e := by
  cases op with
  | jle => exact congrArg (Except.bind · fun a => .ok (Instr.jle a)) h
  | jmp => exact congrArg (Except.bind · fun a => .ok (Instr.jmp a)) h
  | _ => cases hop

section
variable {labels : List LabelDef} {op : Mnemonic} {t : Token} (ht : t.content = .opcodeWord)
include ht

theorem emitWord_of_missing_label (h : labelIndex labels t.literal = none) :
    emitWord labels op [t] = .error (.unresolvedLabel t.literal) := by
  simp [emitWord, resolveArgs, resolveArg, ht, h]

theorem emitWord_of_label_out_of_range (hop : op.format = .j) {k : Nat} (h : labelIndex labels t.literal = some k)
    (hk : 4096 ≤ k) : emitWord labels op [t] = .error (.illFormed (.addressOutOfRange k)) := by
  have hresolve : resolveArgs labels [t] = .ok [.addr k] := by simp [resolveArgs, resolveArg, ht, h]
  simp only [emitWord, hresolve, check_of_checkAddr_error hop (checkAddr_of_le hk)]

end

/-- An error of the encoder is reported, and there is no program (R84). -/
theorem compileEncode_of_error_mem {labels : List LabelDef} {instrs : List SourceInstr} {e : EncodeError}
    (h : e ∈ (emit labels instrs).2) :
    (compileEncode instrs labels).program = none ∧ .encoding e ∈ (compileEncode instrs labels).errors := by
  unfold compileEncode
  split
  next hemit => simp [hemit] at h
  next hemit =>
    rw [hemit] at h
    exact ⟨rfl, List.mem_map_of_mem h⟩

/-- Settles O58: the three refusals of a record, and the report of any of them. -/
theorem encoderErrors : Obligations.EncoderErrors := by
  refine ⟨fun labels i hi => ?_, fun labels op t hop ht => ⟨fun hnone => ?_, fun k hsome hk => ?_⟩,
    fun labels instrs i e hi he => ?_⟩
  · rw [emitOne, mnemonicOfText_eq_none hi]
  · rw [emitOne_text, emitWord_of_missing_label ht hnone]
  · rw [emitOne_text, emitWord_of_label_out_of_range ht hop hsome hk]
  · exact compileEncode_of_error_mem (emit_error_mem he hi)

end Sys2Proof.Machine
end

section
/-!
PROOFS. The engine step (R91 to R96, R99, R101, R121): when the machine has a step, that an enabled one with fitting
answers always answers a next state, and what it runs.
-/

namespace Sys2Proof.Machine

section
variable {s t : State}

/-! ### Progress -/

/-- A completion whose answer, if it has one, fits the port is not refused (R113, R116). -/
theorem exists_completeInput_eq_next (r : RegIdx) (hin : ∀ v ∈ s.inputs, InS s.width v) :
    ∃ t, completeInput r s = .next t := by
  cases hlist : s.inputs with
  | nil => exact ⟨_, completeInput_wait r hlist⟩
  | cons v vs => exact ⟨_, completeInput_accept r hlist (hin v (by simp [hlist]))⟩

/-- No executor has an error case (R118). -/
theorem exists_exec_eq_next (i : Instr) (hin : ∀ v ∈ s.inputs, InS s.width v) : ∃ t, exec i s = .next t := by
  cases i with
  | prompti r =>
    cases ha : s.awaiting with
    | false => exact ⟨_, exec_prompti_request r ha⟩
    | true => simpa only [exec_prompti_pending r ha] using exists_completeInput_eq_next r hin
  | jle d => exact ⟨_, exec_jle d s⟩
  | _ => exact ⟨_, rfl⟩

theorem exists_engineStep_eq_next (hin : ∀ v ∈ s.inputs, InS s.width v) : ∃ t, engineStep s = .next t := by
  cases hw : s.fetch with
  | none => exact ⟨_, engineStep_none hw⟩
  | some w =>
    cases ha : s.awaiting with
    | true => simpa only [engineStep_pending hw ha] using exists_completeInput_eq_next (decode w).reg1 hin
    | false =>
      cases hi : decodeInstr w with
      | error e => exact ⟨_, engineStep_unknown hw ha hi⟩
      | ok i => simpa only [engineStep_exec hw ha hi] using exists_exec_eq_next i hin

/-- A step drops at most the oldest answer (R113; log entry 6). -/
theorem StepEffect.inputs_suffix (h : StepEffect s t) : t.inputs <:+ s.inputs := by
  cases h with
  | answer => exact List.tail_suffix s.inputs
  | _ => exact List.suffix_rfl

/-- Answers that fit the port still fit it after a step: none is added, and `W` stays (R7, R116). -/
theorem StepEffect.inputs_inS (h : StepEffect s t) (hin : ∀ v ∈ s.inputs, InS s.width v) :
    ∀ v ∈ t.inputs, InS t.width v := by
  intro v hv
  have hwidth : t.width = s.width := congrArg Config.Params.width h.mem_params_eq.2
  rw [hwidth]
  exact hin v (h.inputs_suffix.subset hv)

/-! ### The end of a run -/

theorem ended_iff : s.ended = true ↔ s.running = false ∨ s.fault ≠ .noFault := by
  simp [State.ended, State.faulted]

theorem exitCode_of_ready (hr : Ready s) : s.exitCode = none := by
  obtain ⟨-, hrun, hf⟩ := hr
  have hend : s.ended = false := ended_eq_false_iff.2 ⟨hrun, hf⟩
  simp [State.exitCode, hend]

theorem exitCode_of_latched {f : FaultLatch} (hf : s.fault = f) (hne : f ≠ .noFault) : s.exitCode = some f.code := by
  subst hf
  exact exitCode_of_ended (ended_iff.2 (.inr hne))

/-- Outside reset a run that is over has no further step (R91, R99). -/
theorem step_of_ended (hreset : s.resetInput = false) (hend : s.ended = true) : ∃ cause, step s = .fault cause := by
  by_cases hf : s.fault = .noFault
  · have hrun : s.running = false := (ended_iff.1 hend).resolve_right (not_not_intro hf)
    exact ⟨_, step_halted hreset hf hrun⟩
  · exact step_of_latched hf hreset

/-! ### A word placed at `ip` -/

/-- A word that has an instruction is not the blank word (R58). -/
theorem ne_blankWord_of_decodeInstr {w : Word} {i : Instr} (h : decodeInstr w = .ok i) : w ≠ Config.blankWord := by
  rintro rfl
  cases h

/-- An inserted word other than the blank one is found again, whatever the list. -/
theorem lookupCell_insertCell_of_ne_blank {w : Word} (hw : w ≠ Config.blankWord) (i : Nat)
    (cs : List (Nat × Word)) : lookupCell (insertCell i w cs) i = w := by
  induction cs with
  | nil => simp [insertCell, lookupCell, hw]
  | cons c cs ih =>
    obtain ⟨k, u⟩ := c
    rcases Nat.lt_trichotomy i k with hlt | rfl | hgt
    · simp [insertCell, lookupCell, hw, hlt]
    · simp [insertCell, lookupCell, hw]
    · simp [insertCell, lookupCell, ih, Nat.lt_asymm hgt, Nat.ne_of_gt hgt, Nat.ne_of_lt hgt]

theorem Memory.read_place {w : Word} (hw : w ≠ Config.blankWord) (m : Memory) (i : Nat) :
    (m.place i w).read i = some w := by
  have hi : i < max m.size (i + 1) := lt_of_lt_of_le (Nat.lt_succ_self i) (le_max_right _ _)
  simp only [Memory.place, Memory.write, Memory.read, if_pos hi, lookupCell_insertCell_of_ne_blank hw]

theorem ordinary_placeWord (s : State) (w : Word) : Ordinary (s.placeWord w) := ⟨⟨rfl, rfl, rfl⟩, rfl⟩

/-- The word placed is the one the next step fetches (log entry 12). -/
theorem fetchesInstr_placeWord (s : State) {w : Word} {i : Instr} (h : decodeInstr w = .ok i) :
    FetchesInstr (s.placeWord w) i :=
  ⟨w, Memory.read_place (ne_blankWord_of_decodeInstr h) s.mem _, h⟩

theorem decodeInstr_of_decodeTableWord {n w : Nat} {i : Instr} (h : decodeTableWord n w = some i) :
    decodeInstr (BitVec.ofNat 16 (w % 2 ^ n)) = .ok i := by
  unfold decodeTableWord at h
  cases hdec : decodeInstr (BitVec.ofNat 16 (w % 2 ^ n)) with
  | error e => rw [hdec] at h; cases h
  | ok j => rw [hdec] at h; cases h; rfl

end

/-- Settles O44: with fitting answers the engine step answers a next state, every step keeps the invariant, and no
step adds an answer. -/
theorem enabledMachineSteps : Obligations.EnabledMachineSteps := by
  intro s hs hr hin
  have ⟨hreset, hrun, hf⟩ := hr
  obtain ⟨t, ht⟩ := exists_engineStep_eq_next hin
  have hstep : step s = .next t := (step_ready hreset hrun hf).trans ht
  exact ⟨t, hstep, stepKeepsInvariant s t hs hstep, (step_effect hstep hreset).2.inputs_inS hin⟩

/-- Settles O31: a word with such an opcode has no instruction. -/
theorem unknownOpcodeRaised : Obligations.UnknownOpcodeRaised := by
  intro s w ho hw hop
  obtain ⟨⟨hreset, hrun, hf⟩, ha⟩ := ho
  have hnone : Mnemonic.ofCode (decode w).opcode = none := (ofCode_eq_none_iff _).2 hop
  rw [step_ready hreset hrun hf, engineStep_unknown hw ha (decodeInstr_of_ofCode_none hnone)]

/-- Settles O33: a step stops where the run is over, and only there. -/
theorem stepEnabledExactly : Obligations.StepEnabledExactly := by
  intro s hreset
  rw [← ended_iff]
  exact ⟨fun ⟨_, hstop⟩ => ended_of_step_fault hstop, step_of_ended hreset⟩

/-- Settles O51: the placed word is fetched by an ordinary step. -/
theorem placedWordRuns : Obligations.PlacedWordRuns := fun s _ _ h =>
  step_eq_exec (ordinary_placeWord s _) (fetchesInstr_placeWord s (decodeInstr_of_decodeTableWord h))

/-- Settles O29, by the rules of an ordinary step and of a pending prompt's. -/
theorem stepRunsDecodedInstruction : Obligations.StepRunsDecodedInstruction :=
  ⟨fun _ _ ho hi _ => step_eq_exec ho hi, fun _ _ hr ha hi => step_eq_exec_prompti hr ha hi⟩

/-- Settles O34, one end at a time. -/
theorem endOfRunReport : Obligations.EndOfRunReport := by
  intro s hreset
  refine ⟨fun hrun hf => ⟨step_halted hreset hf hrun, ?_⟩,
    fun hf => ⟨step_fetchFault hreset hf, exitCode_of_latched hf nofun⟩,
    fun hf => ⟨step_opcodeFault hreset hf, exitCode_of_latched hf nofun⟩, exitCode_of_ready⟩
  rw [exitCode_of_ended (ended_iff.2 (.inl hrun)), hf, FaultLatch.code]

end Sys2Proof.Machine
end

section
/-!
PROOFS. The register and arithmetic instructions LOADI, ADD, SUB and ADDI (R102 to R106): the end the four share, then the
wrapped result of the last three.
-/

namespace Sys2Proof.Machine

section
variable {s : State} {i : Instr} {r : RegIdx} {v : Int}

/-- The end the four share: the destination holds the result, `ip` is one more, and nothing else changes (R102). -/
theorem exec_stores (h : exec i s = .next ((s.writeReg r v).setIp s.nextIp)) :
    ∃ t, exec i s = .next t ∧ t.readReg r = v ∧ t.ip = s.ip + 1 ∧ SameRegsBut r s t ∧ t.z = s.z ∧ SameRest s t :=
  ⟨_, h, State.readReg_writeReg_self s r v, rfl, fun _ hq => State.readReg_writeReg_other s v hq, rfl, sameRest_refl s⟩

/-- An instruction that stores `wrap_W(v)` leaves in its destination what R10 calls the wrap of `v`. -/
theorem exec_stores_wrap (hw : 9 ≤ s.width)
    (h : exec i s = .next ((s.writeReg r (wrap s.width v)).setIp s.nextIp)) :
    ∃ t, exec i s = .next t ∧ InS s.width (t.readReg r) ∧ (2 : Int) ^ s.width ∣ t.readReg r - v ∧
      (InS s.width v → t.readReg r = v) ∧ t.ip = s.ip + 1 ∧ SameRegsBut r s t ∧ t.z = s.z ∧ SameRest s t := by
  have hwidth : 1 ≤ s.width := by omega
  obtain ⟨t, ht, hr, hframe⟩ := exec_stores h
  exact ⟨t, ht, hr ▸ wrap_inS hwidth v, hr ▸ dvd_wrap_sub s.width v, fun hv => hr.trans (wrap_of_inS hwidth hv), hframe⟩

end

/-- Settles O16: an immediate is a byte, and a byte lies in `S_W`. -/
theorem loadiLoadsImmediate : Obligations.LoadiLoadsImmediate := by
  intro s r v hw
  refine ⟨encoderClosedForm (Instr.loadi r v).toInput, ?_⟩
  obtain ⟨t, ht, hr, hframe⟩ := exec_stores (exec_loadi r v s)
  have hbyte : InS s.width (immOperand v) := inS_of_byte hw v.isLt
  exact ⟨t, ht, hr, hr ▸ hbyte, hframe⟩

/-- Settles O17: ADD stores the wrapped sum. -/
theorem addWraps : Obligations.AddWraps := fun s a b c hw =>
  ⟨encoderClosedForm (Instr.add a b c).toInput, exec_stores_wrap hw (exec_add a b c s)⟩

/-- Settles O18: SUB stores the wrapped difference, `reg2` its minuend. -/
theorem subWraps : Obligations.SubWraps := fun s a b c hw =>
  ⟨encoderClosedForm (Instr.sub a b c).toInput, exec_stores_wrap hw (exec_sub a b c s)⟩

/-- Settles O19: ADDI stores the wrapped sum of its old destination and the byte. -/
theorem addiWraps : Obligations.AddiWraps := fun s r v hw =>
  ⟨encoderClosedForm (Instr.addi r v).toInput, exec_stores_wrap hw (exec_addi r v s)⟩

end Sys2Proof.Machine
end

section
/-!
PROOFS. The compare and control-transfer instructions CMP, JLE and JMP (R107 to R110), each alone, then a CMP with the
JLE after it (R135) and a jump beyond the program (R120).
-/

namespace Sys2Proof.Machine

section
variable {s : State}

/-! ### Jumps -/

/-- The twelve bits of a jump address reach `ip` unchanged (R53). -/
theorem toNat_jumpTarget (d : JumpAddr) : (jumpTarget d).toNat = d.toNat :=
  BitVec.toNat_setWidth_of_le (by decide)

theorem exec_jle_taken (d : JumpAddr) (hz : s.z ≤ 0) : exec (.jle d) s = .next (s.setIp (jumpTarget d)) := by
  rw [exec_jle, if_pos hz]

theorem exec_jle_not_taken (d : JumpAddr) (hz : 0 < s.z) : exec (.jle d) s = .next (s.setIp s.nextIp) := by
  rw [exec_jle, if_neg (Int.not_le.2 hz)]

/-- JMP, and JLE when `Z <= 0`, go to the target and do nothing else (R107). -/
theorem exec_jump {i : Instr} {d : JumpAddr} (h : i = .jmp d ∨ (i = .jle d ∧ s.z ≤ 0)) :
    exec i s = .next (s.setIp (jumpTarget d)) := by
  obtain rfl | ⟨rfl, hz⟩ := h
  · exact exec_jmp d s
  · exact exec_jle_taken d hz

/-- Moving `ip` changes nothing else. -/
theorem setIp_frame (s : State) (r : Ip) :
    SameRegs s (s.setIp r) ∧ (s.setIp r).z = s.z ∧ SameRest s (s.setIp r) :=
  ⟨fun _ => rfl, rfl, sameRest_refl s⟩

end

/-- Settles O20: the sign of an exact difference compares its terms, and the decoder reads no third register. -/
theorem cmpIsExact : Obligations.CmpIsExact := by
  intro s a b hw
  have hwidth : 1 ≤ s.width := by omega
  have hdecode : ∀ w, (decode w).opcode = 0x5#4 → decodeInstr w = .ok (.cmp (decode w).reg1 (decode w).reg2) :=
    fun w hop => decodeInstr_of_ofCode (op := .cmp) (by rw [hop]; rfl)
  exact ⟨encoderClosedForm (Instr.cmp a b).toInput, hdecode, _, exec_cmp a b s, rfl, sub_nonpos, sub_eq_zero, sub_neg,
    sub_inS hwidth, rfl, fun _ => rfl, sameRest_refl s⟩

/-- Settles O21: a JLE moves `ip` and nothing else, to the place that the sign of `Z` picks. -/
theorem jleBranches : Obligations.JleBranches := by
  intro s d
  refine ⟨encoderClosedForm (Instr.jle d).toInput, ?_⟩
  obtain hz | hz := le_or_gt s.z 0
  · exact ⟨_, exec_jle_taken d hz, fun _ => toNat_jumpTarget d, fun hpos => absurd hpos hz.not_gt,
      setIp_frame s _⟩
  · exact ⟨_, exec_jle_not_taken d hz, fun hle => absurd hle hz.not_ge, fun _ => rfl, setIp_frame s _⟩

/-- Settles O22: a JMP moves `ip` to the target and nothing else. -/
theorem jmpJumps : Obligations.JmpJumps := fun s d =>
  ⟨encoderClosedForm (Instr.jmp d).toInput, _, exec_jmp d s, toNat_jumpTarget d, setIp_frame s _⟩

/-- Settles O52: the JLE finds in `Z` the difference that the CMP left there. -/
theorem cmpThenJle : Obligations.CmpThenJle := by
  intro s a b d w ho hi hw hdec
  have hcmp := (step_eq_exec ho hi).trans (exec_cmp a b s)
  have ht : Ordinary ((s.writeZ (s.readReg a - s.readReg b)).setIp s.nextIp) := ho
  have hjle := (step_eq_exec ht ⟨w, hw, hdec⟩).trans (exec_jle d _)
  exact ⟨_, _, hcmp, hjle, fun _ => rfl, sameRest_refl s, if_congr sub_nonpos rfl rfl⟩

/-- Settles O53: the jump only moves `ip`, so the next step is an enabled one outside the program. -/
theorem jumpBeyondTheEnd : Obligations.JumpBeyondTheEnd := by
  intro s i d ho hi hjump hsize
  have hexec := exec_jump hjump
  have ⟨hready, _⟩ := ho
  have ⟨hreset, hrun, hf⟩ := hready
  have hip := toNat_jumpTarget d
  have hfault : step (s.setIp (jumpTarget d)) = .next ((s.setIp (jumpTarget d)).raise .fetchOutOfBounds) :=
    step_outside hready (hsize.trans_eq hip.symm)
  have ⟨hregs, hz, _, hio, hstore, hparams⟩ := setIp_frame s (jumpTarget d)
  exact ⟨_, _, (step_eq_exec ho hi).trans hexec, hexec, hf, hip, hfault, rfl, hip, hrun, hreset, hregs, hz, hio, hstore,
    hparams⟩

end Sys2Proof.Machine
end

section
/-!
PROOFS. The system and input/output instructions HALT, REGDUMP and PROMPTI (R111 to R113), the host's answer to a
prompt (R116), and the text of an output (R115).
-/

namespace Sys2Proof.Machine

section
variable {s t : State}

/-- A word with a mnemonic's code for its opcode is that instruction (R54). -/
theorem decodeInstr_of_opcode {w : Word} {op : Mnemonic} (h : (decode w).opcode = op.code) :
    decodeInstr w = .ok ((decode w).readAs op) :=
  decodeInstr_of_ofCode (h ▸ ofCode_code op)

/-! ### The host's answer -/

/-- A prompt without an answer yet holds the host's value for its completion (R113, R129). -/
theorem hostMove_answer_held {v : Int} (hv : InS s.width v) (ha : s.awaiting = true) (hin : s.inputs = []) :
    hostMove (.answer v) s = .next { s with inputs := [v] } := by
  simp only [hostMove, hostAnswer, if_pos hv, ha, hin, and_self, if_true]

/-- A prompt takes one answer (log entry 6). -/
theorem hostMove_answer_of_answered {v : Int} (hv : InS s.width v) (hin : s.inputs ≠ []) :
    hostMove (.answer v) s = .next s := by
  simp only [hostMove, hostAnswer, if_pos hv, hin, and_false, if_false]

theorem hostMove_answer_refused {v : Int} (hv : ¬ InS s.width v) :
    hostMove (.answer v) s = .refused (.promptValueOutOfRange v) :=
  if_neg hv

/-! ### The history -/

/-- Every effect of a step leaves the history or appends to it the one event of its instruction (R97, R117). -/
theorem StepEffect.history_eq_or_append (h : StepEffect s t) :
    t.history = s.history ∨ ∃ e, t.history = s.history ++ [e] := by
  cases h with
  | answer => exact .inr ⟨_, rfl⟩
  | regdump => exact .inr ⟨_, rfl⟩
  | request => exact .inr ⟨_, rfl⟩
  | _ => exact .inl rfl

/-- An output's message joins the messages of the run (R115, R117). -/
theorem messages_append_output (h : List Event) (n : Nat) (v : Int) :
    messages (h ++ [.output n v]) = messages h ++ [message n v] :=
  List.filterMap_append

end

/-! ### The numeral -/

theorem toNat_digitChar : ∀ {d : Nat}, d < 10 → (digitChar d).toNat = 48 + d := by decide

theorem isDigitChar_digitChar : ∀ {d : Nat}, d < 10 → isDigitChar (digitChar d) = true := by decide

theorem digitChar_ne_zero : ∀ {d : Nat}, d < 10 → d ≠ 0 → digitChar d ≠ '0' := by decide

theorem decDigits_append (fuel k : Nat) (acc : List Char) :
    decDigits fuel k acc = decDigits fuel k [] ++ acc := by
  induction fuel generalizing k acc with
  | zero => rfl
  | succ fuel ih =>
    unfold decDigits
    split
    · rfl
    · rw [ih, ih _ [_], List.append_assoc, List.singleton_append]

/-- Any fuel above `k` gives the same digits. -/
theorem decDigits_fuel {f g k : Nat} (hf : k < f) (hg : k < g) (acc : List Char) :
    decDigits f k acc = decDigits g k acc := by
  induction f generalizing g k acc with
  | zero => omega
  | succ f ih =>
    cases g with
    | zero => omega
    | succ g =>
      unfold decDigits
      split
      · rfl
      · exact ih (by omega) (by omega) _

theorem decNat_of_lt {k : Nat} (hk : k < 10) : decNat k = [digitChar k] := if_pos hk

theorem decNat_of_ge {k : Nat} (hk : 10 ≤ k) : decNat k = decNat (k / 10) ++ [digitChar (k % 10)] := by
  rw [decNat, decDigits, if_neg (Nat.not_lt.2 hk), decDigits_append, decNat]
  rw [decDigits_fuel (by omega : k / 10 < k) (Nat.lt_succ_self _)]

/-- A numeral is one digit, or the numeral of a positive number with one more digit. -/
theorem decNat_induction {P : Nat → List Char → Prop} (digit : ∀ d < 10, P d [digitChar d])
    (append : ∀ k d, k ≠ 0 → d < 10 → P k (decNat k) → P (10 * k + d) (decNat k ++ [digitChar d])) (k : Nat) :
    P k (decNat k) := by
  induction k using Nat.strong_induction_on with
  | _ k ih =>
    obtain hlt | hge := Nat.lt_or_ge k 10
    · rw [decNat_of_lt hlt]
      exact digit k hlt
    · have hP := append (k / 10) (k % 10) (by omega) (by omega) (ih (k / 10) (by omega))
      rwa [Nat.div_add_mod, ← decNat_of_ge hge] at hP

theorem decNat_ne_nil (k : Nat) : decNat k ≠ [] :=
  decNat_induction (P := fun _ ds => ds ≠ []) (fun _ _ => List.cons_ne_nil _ _)
    (fun _ _ _ _ _ => List.concat_ne_nil _ _) k

theorem all_isDigitChar_decNat (k : Nat) : (decNat k).all isDigitChar = true := by
  refine decNat_induction (P := fun _ ds => ds.all isDigitChar = true) (fun d hd => ?_) (fun k d _ hd ih => ?_) k
  · simp [isDigitChar_digitChar hd]
  · rw [List.all_append, ih]
    simp [isDigitChar_digitChar hd]

theorem digitsValue_decNat (k : Nat) : digitsValue (decNat k) = k := by
  refine decNat_induction (P := fun k ds => digitsValue ds = k) (fun d hd => ?_) (fun k d _ hd ih => ?_) k
  · simp [digitsValue, toNat_digitChar hd]
  · have hlast : digitsValue (decNat k ++ [digitChar d]) = 10 * digitsValue (decNat k) + ((digitChar d).toNat - 48) :=
      List.foldl_append
    rw [hlast, ih, toNat_digitChar hd, Nat.add_sub_cancel_left]

/-- A positive number's numeral begins with its leading digit, which is not zero (R115). -/
theorem head?_decNat_ne_zero {k : Nat} (hk : k ≠ 0) : (decNat k).head? ≠ some '0' := by
  refine decNat_induction (P := fun k ds => k ≠ 0 → ds.head? ≠ some '0') (fun d hd hne => ?_)
    (fun k d hk _ ih _ => ?_) k hk
  · simpa using digitChar_ne_zero hd hne
  · rw [List.head?_append_of_ne_nil _ (decNat_ne_nil k)]
    exact ih hk

@[simp] theorem dec_natCast (k : Nat) : dec k = decNat k := by
  rw [dec, if_neg (Int.not_lt.2 (Int.natCast_nonneg k)), Int.toNat_natCast]

theorem dec_of_neg {k : Int} (hk : k < 0) : dec k = '-' :: dec (-k) := by
  rw [dec, dec, if_pos hk, if_neg (by omega)]

/-! ### The statements -/

/-- Settles O26: the completion puts the answer in its register and takes it off the list. -/
theorem promptiCompletes : Obligations.PromptiCompletes := by
  intro s r v vs ha hin hv
  have hexec := (exec_prompti_pending r ha).trans (completeInput_accept r hin hv)
  refine ⟨_, hexec, State.readReg_writeReg_self s r v, rfl, ?_, rfl, rfl,
    fun _ hq => State.readReg_writeReg_other s v hq, rfl, ⟨rfl, rfl, rfl⟩, ⟨rfl, fun _ => rfl⟩, rfl⟩
  exact congrArg List.tail hin

/-- Settles O40, by the effects of a step. -/
theorem atMostOneEvent : Obligations.AtMostOneEvent :=
  fun _ _ h hreset => (step_effect h hreset).2.history_eq_or_append

/-- Settles O55: the request leaves `ip` at the PROMPTI and the answers alone, so the second step completes it. -/
theorem promptInTwoSteps : Obligations.PromptInTwoSteps := by
  intro s r v vs ho hi hin hv
  have ⟨hready, ha⟩ := ho
  have hrequest := (step_eq_exec ho hi).trans (exec_prompti_request r ha)
  obtain ⟨u, hu, hreg, hawait, hinputs, hhist, hip, hregs, hz, -⟩ :=
    promptiCompletes s.requestInput r v vs rfl hin hv
  have haccept : step s.requestInput = .next u := (step_eq_exec_prompti (s := s.requestInput) hready rfl hi).trans hu
  rw [State.requestInput_history, List.append_assoc] at hhist
  exact ⟨_, u, hrequest, rfl, fun _ => rfl, haccept, hreg, hregs, hip, hawait, hinputs, hhist, hz⟩

/-- Settles O57: the text by the definition of the message, the numerals by their digits. -/
theorem decimalNumerals : Obligations.DecimalNumerals := by
  refine ⟨fun _ _ => rfl, fun k => ?_, rfl, fun _ => dec_of_neg⟩
  rw [dec_natCast]
  exact ⟨all_isDigitChar_decNat k, digitsValue_decNat k, decNat_ne_nil k, head?_decNat_ne_zero⟩

/-- Settles O59: the answer becomes the whole list of answers, and the next step is the completion with it. -/
theorem answerCompletesPrompt : Obligations.AnswerCompletesPrompt := by
  refine ⟨fun s r v hready ha hin hi hv => ?_, fun _ _ => hostMove_answer_refused⟩
  let a : State := { s with inputs := [v] }
  obtain ⟨t, ht, hreg, hawait, hinputs, hhist, hip, hframe⟩ := promptiCompletes a r v [] ha rfl hv
  have hsecond : ∀ v' : Int, InS s.width v' → hostMove (.answer v') a = .next a :=
    fun _ hv' => hostMove_answer_of_answered hv' (List.cons_ne_nil v [])
  have hstep : step a = .next t := (step_eq_exec_prompti (s := a) hready ha hi).trans ht
  exact ⟨a, t, hostMove_answer_held hv ha hin, rfl, hsecond, hstep, hreg, hawait, hinputs, hip, hhist, hframe⟩

/-- Settles O23: a word below `0x1000` has HALT's opcode, 0. -/
theorem haltStops : Obligations.HaltStops := by
  intro s
  have hdecode : ∀ w : Word, w.toNat < 0x1000 → decodeInstr w = .ok .halt := by
    intro w hw
    have hop : (decode w).opcode = 0x0#4 :=
      BitVec.eq_of_toNat_eq ((toNat_decode_opcode w).trans (Nat.div_eq_of_lt hw))
    exact decodeInstr_of_opcode (op := .halt) hop
  exact ⟨pack_n _, hdecode, _, exec_halt s, rfl, rfl, rfl, rfl, fun _ => rfl, rfl, ⟨rfl, rfl, rfl⟩,
    ⟨rfl, fun _ => rfl⟩, rfl⟩

/-- Settles O24: REGDUMP records one output, whose message is the one more. -/
theorem regdumpOutputs : Obligations.RegdumpOutputs := by
  intro s r
  exact ⟨encoderClosedForm (Instr.regdump r).toInput, fun _ => decodeInstr_of_opcode (op := .regdump), _,
    exec_regdump r s, rfl, messages_append_output s.history _ _, rfl, rfl, rfl, fun _ => rfl, rfl, ⟨rfl, rfl, rfl⟩,
    ⟨rfl, fun _ => rfl⟩, rfl⟩

/-- Settles O25: the request sets `awaiting` and is recorded. -/
theorem promptiRequests : Obligations.PromptiRequests := fun _ r ha =>
  ⟨_, exec_prompti_request r ha, rfl, rfl, rfl, rfl, fun _ => rfl, rfl, ⟨rfl, rfl, rfl⟩, ⟨rfl, fun _ => rfl⟩, rfl⟩

/-- Settles O27: the completion refuses what the port cannot carry. -/
theorem promptiRefusesWideValue : Obligations.PromptiRefusesWideValue :=
  fun _ r _ _ ha hin hv => (exec_prompti_pending r ha).trans (completeInput_refuse r hin hv)

end Sys2Proof.Machine
end

section
/-!
PROOFS. A packed word is canonical (R57), and the encoder phase emits only packed words (R73, R121).
-/

namespace Sys2Proof

/-- The pack stage reads only the inputs of the opcode's format (R73), so a decoded record packs as the instruction it
stands for. -/
theorem encode_readAs (d : Decoded) (op : Mnemonic) : encode (d.readAs op) = pack (d.inputAs op) := by
  cases op <;> rfl

/-- Decoding a packed word and packing it again changes nothing, so its filler is set already (R57, R88, R89). -/
theorem canonical_encode (i : Instr) : canonical (encode i) = true := by
  have hop := ofCode_opcode_encode i
  rw [canonical_iff_or_filler_eq hop]
  calc encode i ||| i.mnemonic.format.filler
      = pack ((decode (encode i)).inputAs i.mnemonic) := (pack_inputAs hop).symm
    _ = encode ((decode (encode i)).readAs i.mnemonic) := (encode_readAs _ _).symm
    _ = encode i := by rw [readAs_encode]

end Sys2Proof

namespace Sys2Proof.Machine

/-- A record the encoder accepts gives the word of an instruction (R73, R84). -/
theorem exists_encode_of_emitOne {labels : List LabelDef} {i : SourceInstr} {w : Word}
    (h : emitOne labels i = .ok w) : ∃ instr, encode instr = w := by
  unfold emitOne emitWord at h
  split at h
  next op _ =>
    split at h
    next => cases h
    next raw _ =>
      split at h
      next => cases h
      next instr _ => exact ⟨instr, Except.ok.inj h⟩
  next => cases h

/-- Every word of a program that `compile` delivers is the word of an instruction (R70, R83). -/
theorem exists_encode_of_compile {source : List Char} {ws : List Word} (h : (compile source).program = some ws)
    {w : Word} (hw : w ∈ ws) : ∃ instr, encode instr = w := by
  have hok : .ok w ∈ ws.map (Except.ok (ε := EncodeError)) := List.mem_map_of_mem hw
  rw [← map_emitOne_of_emit (emit_of_compile h)] at hok
  obtain ⟨i, -, hi⟩ := List.mem_map.1 hok
  exact exists_encode_of_emitOne hi

/-- Settles O9: each word is an instruction's, and every instruction's word is canonical and has that instruction's
opcode. -/
theorem compiledWordsAreCanonical : Obligations.CompiledWordsAreCanonical := by
  intro source ws h w hw
  obtain ⟨i, rfl⟩ := exists_encode_of_compile h hw
  exact ⟨canonical_encode i, _, decodeInstr_of_ofCode (ofCode_opcode_encode i)⟩

end Sys2Proof.Machine
end

section
/-!
PROOFS. The fault latch: no executor writes it (R118), and raising a fault writes nothing else (R119, R125).
-/

namespace Sys2Proof.Machine

section
variable {s t : State}

/-- A completion of a prompt latches no fault, whether it waits or stores the answer (R113, R118). -/
theorem completeInput_fault {r : RegIdx} (h : completeInput r s = .next t) : t.fault = s.fault := by
  obtain ⟨-, rfl⟩ | ⟨v, vs, -, -, rfl⟩ := completeInput_cases h
  · rfl
  · rfl

/-- No executor writes the fault latch (R118). -/
theorem exec_fault {i : Instr} (h : exec i s = .next t) : t.fault = s.fault := by
  cases i with
  | prompti r =>
    cases ha : s.awaiting with
    | false => cases (exec_prompti_request r ha).symm.trans h; rfl
    | true => exact completeInput_fault ((exec_prompti_pending r ha).symm.trans h)
  | jle d => cases (exec_jle d s).symm.trans h; rfl
  | _ => cases h; rfl

end

/-- Settles O28: fitting answers are not refused, and the next state has the latch of the old one. -/
theorem executorsNeverFault : Obligations.ExecutorsNeverFault := by
  intro s i hin
  obtain ⟨t, ht⟩ := exists_exec_eq_next i hin
  exact ⟨t, ht, exec_fault ht⟩

/-- Settles O32, element by element. -/
theorem raiseWritesOnlyTheLatch : Obligations.RaiseWritesOnlyTheLatch := fun s f =>
  ⟨s.raise_fault f, s.raise_ip f, s.raise_running f, s.raise_resetInput f, s.readReg_raise f, s.raise_z f,
    ⟨s.raise_awaiting f, s.raise_inputs f, s.raise_history f⟩, ⟨rfl, fun _ => rfl⟩, s.raise_params f⟩

end Sys2Proof.Machine
end

section
/-!
PROOFS. The host's moves (R116, R131, R134, R137): reset from any state and its release, a load, and an answer; each
keeps the invariant, and after reset nothing of the run before is left (R133).
-/

namespace Sys2Proof.Machine

section
variable {s t : State}

/-! ### Reset and its release -/

theorem hostMove_reset (s : State) : hostMove .reset s = .next { s.applyReset with resetInput := true } := rfl

/-- What reset leaves depends on the store and the parameters alone (R131, R133). -/
theorem applyReset_congr (hmem : s.mem = t.mem) (hparams : s.params = t.params) : s.applyReset = t.applyReset := by
  simp only [State.applyReset, hmem, hparams]

/-- The step after the host's reset puts the engine into its reset state (R131). -/
theorem step_of_hostMove_reset (h : hostMove .reset s = .next t) : step t = .next s.applyReset := by
  cases (hostMove_reset s).symm.trans h
  exact step_reset rfl

/-- A held reset latches nothing and asks nothing, so the invariant stays (R131; log entry 9). -/
theorem Inv.holdReset (hs : Inv s) : Inv { s.applyReset with resetInput := true } :=
  { hs.applyReset with reset := fun _ => ⟨s.applyReset_awaiting, s.applyReset_fault⟩ }

/-! ### A load -/

theorem hostMove_load_refused (hreset : s.resetInput = false) (ws : List Word) :
    hostMove (.load ws) s = .refused .storeWriteDuringRun := by
  simp [hostMove, hostLoad, hreset]

theorem hostMove_load_tooLong (hreset : s.resetInput = true) {ws : List Word} (hlong : Config.maxProgram < ws.length) :
    hostMove (.load ws) s = .refused (.programTooLong ws.length) := by
  simp [hostMove, hostLoad, hreset, loadProgram_tooLong hlong]

theorem hostMove_load_fits (hreset : s.resetInput = true) {ws : List Word} (hfits : ws.length ≤ Config.maxProgram) :
    hostMove (.load ws) s = .next { s with mem := Memory.ofWords ws } := by
  simp [hostMove, hostLoad, hreset, loadProgram_fits hfits]

/-- A load that the model accepts was made in reset and is a load of the program into the store (R134, R137). -/
theorem loadProgram_of_hostMove_load {ws : List Word} (h : hostMove (.load ws) s = .next t) :
    s.resetInput = true ∧ s.loadProgram ws = .ok t := by
  cases hreset : s.resetInput with
  | false => cases (hostMove_load_refused hreset ws).symm.trans h
  | true =>
    by_cases hfits : ws.length ≤ Config.maxProgram
    · cases (hostMove_load_fits hreset hfits).symm.trans h
      exact ⟨rfl, loadProgram_fits hfits s⟩
    · cases (hostMove_load_tooLong hreset (Nat.not_le.1 hfits)).symm.trans h

/-! ### An answer -/

/-- Without a pending prompt a value is not consumed (R131; log entry 6). -/
theorem hostMove_answer_of_not_awaiting {v : Int} (hv : InS s.width v) (ha : s.awaiting = false) :
    hostMove (.answer v) s = .next s := by
  simp [hostMove, hostAnswer, hv, ha]

/-- An answer that the model accepts changes the list of answers at most (R116). -/
theorem exists_inputs_of_hostMove_answer {v : Int} (h : hostMove (.answer v) s = .next t) :
    ∃ vs, t = { s with inputs := vs } := by
  by_cases hv : InS s.width v
  · by_cases ha : s.awaiting = true
    · by_cases hin : s.inputs = []
      · cases (hostMove_answer_held hv ha hin).symm.trans h
        exact ⟨[v], rfl⟩
      · cases (hostMove_answer_of_answered hv hin).symm.trans h
        exact ⟨s.inputs, rfl⟩
    · cases (hostMove_answer_of_not_awaiting hv (Bool.eq_false_of_not_eq_true ha)).symm.trans h
      exact ⟨s.inputs, rfl⟩
  · cases (hostMove_answer_refused hv).symm.trans h

end

/-- Settles O43: a reset puts the reset values in place, a load is accepted only in reset, where no clause speaks of
the word at `ip`, and of an answer the invariant says nothing. -/
theorem hostKeepsInvariant : Obligations.HostKeepsInvariant := by
  intro m s t hs h
  cases m with
  | reset =>
    cases (hostMove_reset s).symm.trans h
    exact hs.holdReset
  | load ws =>
    obtain ⟨hreset, hload⟩ := loadProgram_of_hostMove_load h
    obtain ⟨ha, hf⟩ := hs.reset hreset
    exact hs.loadProgram hf ha hload
  | answer v =>
    obtain ⟨vs, rfl⟩ := exists_inputs_of_hostMove_answer h
    exact hs.setInputs vs

/-- Settles O48: the reset dropped the prompt, and without one no answer is consumed. -/
theorem lateAnswerNotConsumed : Obligations.LateAnswerNotConsumed := by
  intro s a t v _ hreset hstep hv
  cases (step_of_hostMove_reset hreset).symm.trans hstep
  exact hostMove_answer_of_not_awaiting hv s.applyReset_awaiting

/-- Settles O49: the release keeps the loaded store and puts `ip` at its word 0. -/
theorem hostLoadsInReset : Obligations.HostLoadsInReset := by
  refine ⟨fun _ ws hreset => hostMove_load_refused hreset ws,
    fun _ _ hreset hlong => hostMove_load_tooLong hreset hlong, ?_⟩
  intro s ws hreset hfits
  exact ⟨_, _, hostMove_load_fits hreset hfits, step_reset hreset, rfl, Memory.read_ofWords ws 0, rfl,
    Memory.read_ofWords ws⟩

/-- Settles O46: the release leads to the reset state, element by element. -/
theorem resetFromAnyState : Obligations.ResetFromAnyState := fun s =>
  ⟨_, s.applyReset, hostMove_reset s, step_of_hostMove_reset (hostMove_reset s), s.readReg_applyReset,
    s.applyReset_z, s.applyReset_ip, s.applyReset_running, s.applyReset_fault, s.applyReset_awaiting,
    s.applyReset_resetInput, ⟨rfl, fun _ => rfl⟩, s.applyReset_params⟩

/-- Settles O47: both runs start in one state. -/
theorem runsCarryNothingOver : Obligations.RunsCarryNothingOver := by
  intro s s' hmem hparams k
  rw [applyReset_congr hmem hparams]

end Sys2Proof.Machine
end
